-- ==== Sys2Proof/Word.lean ====
section
/-! DEFINITION. The word types of the block: bytes, encoded triplets, packed colours, command words, RAM addresses.
The widths are those of spec/00_scope.md R7, R8 and R12 (all values unsigned) and spec/30_encoding.md R70. -/

namespace Sys2Proof

/-- A byte of buffer RAM, and a ChannelValue (R31, R72). -/
abbrev Byte := BitVec 8

/-- An encoded triplet: one entry of the encoding table, 24 bits (R15, R30). -/
abbrev Pattern := BitVec 24

/-- A packed colour and the RESULT register, 32 bits (R29, R55). -/
abbrev Word32 := BitVec 32

/-- A pixel count or a pixel index, 16 bits (R7, R72). -/
abbrev Count := BitVec 16

/-- A FRAME_SIZE or a transfer length, 20 bits (R8, R25, R160). -/
abbrev FrameLen := BitVec 20

/-- A buffer RAM byte address, 21 bits (R8, R31). -/
abbrev RamAddr := BitVec 21

/-- One command word as the host issues it, 64 bits (R70). -/
abbrev CommandWord := BitVec 64

end Sys2Proof
end

