-- ==== Sys2Proof/Config.lean ====
section
/-! DEFINITION. What is fixed for one block's lifetime (spec/00_scope.md R6, R9, R10), the configuration the reset state
takes where none is given, and the one free value of the model: the transport's draw (R11). -/

namespace Sys2Proof

/-- `VARIANT`, the strip's channel set (R6, R22). -/
inductive Variant where
  /-- 0 = `RGB`, three channels. -/
  | rgb
  /-- 1 = `RGBW`, four channels. -/
  | rgbw
deriving DecidableEq, Repr, Inhabited

/-- `CONTRACT_MODE`, how a broken timing contract is treated (R10, R215). -/
inductive ContractMode where
  /-- The command is held while a transfer is in flight: the host waits. -/
  | hostDuty
  /-- The violation is recorded in FAULT and the command proceeds. -/
  | fault
deriving DecidableEq, Repr, Inhabited

/-- The transport's outcome for one transfer (R11): all of the frame reaches the line, or its first `k` bytes.
The rule bounds `k` by the transfer's length; a larger `k` means the whole length (R171 takes the first `k` of `len` bytes). -/
inductive Draw where
  | ok
  | fail (k : Nat)
deriving DecidableEq, Repr, Inhabited

/-- The block's parameters: `VARIANT` (R6), `BUF_CAP`, any natural number up to 2^21 (R9), and `CONTRACT_MODE` (R10).
All three are open: every statement about the machine holds for every value of this record. -/
structure Config where
  variant      : Variant
  bufCap       : Fin (2 ^ 21 + 1)
  contractMode : ContractMode
deriving DecidableEq, Repr

/-- The configuration of `State.reset`. DESIGN CHOICE (log entry 1): the spec leaves all three parameters open. -/
def Config.default : Config :=
  { variant := .rgb, bufCap := 2097152, contractMode := .hostDuty }

/-- FREE VALUE (R11, log entry 4): the outcome of the n-th transfer whose outcome the input list `State.draws` does not
give. Nothing constrains it. -/
opaque Config.freeDraw : Nat → Draw

end Sys2Proof
end

