-- ==== Sys2Proof/Syntax.lean ====
section
/-! DEFINITION. The command set as syntax (spec/30_encoding.md R71 to R73): one constructor for each row of
spec/opcode_table.json, with the row's operands at their exact widths, and the assembler's source lines (R77, R78). -/

namespace Sys2Proof

/-- The eleven commands of R73. Operand names are those of R71; `w` is the fourth channel operand `w_ch`. -/
inductive Instr where
  /-- ENCODE, format B8 (R104). -/
  | encodeByte (v : Byte)
  /-- DECODE, format P24 (R105). -/
  | decodePattern (p : Pattern)
  /-- PACK, format CH0 (R106). -/
  | pack (r g b w : Byte)
  /-- SETLEN, format L16 (R121). -/
  | setlen (n : Count)
  /-- CLEAR, format N0 (R122). -/
  | clear
  /-- PIXCNT, format N0 (R124). -/
  | pixcnt
  /-- TEARDOWN, format N0 (R123). -/
  | teardown
  /-- SETPIX, format CH (R141). -/
  | setpix (idx : Count) (r g b w : Byte)
  /-- SETPIXP, format PK (R142). -/
  | setpixp (idx : Count) (col : Word32)
  /-- BEGIN, format N0 (R161). -/
  | beginTransport
  /-- SHOW, format S1 (R162). -/
  | showFrame (clone : Bool)
deriving DecidableEq, Repr

/-- A source line of the assembler (R77) or a pseudo-instruction (R78), its operands the numbers as written: whether each
fits its field is `AsmLine.wellFormed`. -/
inductive AsmLine where
  | encodeByte (v : Nat)
  | decodePattern (p : Nat)
  | pack (r g b w : Nat)
  | setlen (n : Nat)
  | clear
  | pixcnt
  | teardown
  | setpix (idx r g b w : Nat)
  | setpixp (idx col : Nat)
  | beginTransport
  | showFrame (clone : Nat)
  /-- `SETPIX idx, r, g, b`: the RGB signature (R78). -/
  | setpixRgb (idx r g b : Nat)
  /-- `PACK r, g, b` (R78). -/
  | packRgb (r g b : Nat)
  /-- `SHOWC` (R78). -/
  | showClone
  /-- `SHOWN` (R78). -/
  | showNoClone
  /-- `CONSTRUCT n`: no command word; a reset and then `SETLEN n` (R78, R213). -/
  | construct (n : Nat)
  /-- `DESTROY` (R78). -/
  | destroy
deriving DecidableEq, Repr

end Sys2Proof
end

