-- ==== Sys2Proof/WellFormed.lean ====
section
/-! DEFINITION. Which terms of the syntax stand for something the block or its assembler accepts.
A command's operands have exactly their fields' widths, and no operand value is reserved (spec/30_encoding.md R72), so every
term of `Instr` is well formed. A source line is well formed when each number fits its field (R77). -/

namespace Sys2Proof

/-- R72: "Every bit of every field is meaningful, so no operand value is reserved." -/
def Instr.wellFormed : Instr → Bool
  | .encodeByte _ => true
  | .decodePattern _ => true
  | .pack _ _ _ _ => true
  | .setlen _ => true
  | .clear => true
  | .pixcnt => true
  | .teardown => true
  | .setpix _ _ _ _ _ => true
  | .setpixp _ _ => true
  | .beginTransport => true
  | .showFrame _ => true

/-- Whether a written number fits a field of `width` bits. -/
def fits (width x : Nat) : Bool := decide (x < 2 ^ width)

/-- R77: "a value that does not fit its field is an assembly error". The field widths are those of R71. -/
def AsmLine.wellFormed : AsmLine → Bool
  | .encodeByte v => fits 8 v
  | .decodePattern p => fits 24 p
  | .pack r g b w => fits 8 r && fits 8 g && fits 8 b && fits 8 w
  | .setlen n => fits 16 n
  | .clear => true
  | .pixcnt => true
  | .teardown => true
  | .setpix idx r g b w => fits 16 idx && fits 8 r && fits 8 g && fits 8 b && fits 8 w
  | .setpixp idx col => fits 16 idx && fits 32 col
  | .beginTransport => true
  | .showFrame clone => fits 1 clone
  | .setpixRgb idx r g b => fits 16 idx && fits 8 r && fits 8 g && fits 8 b
  | .packRgb r g b => fits 8 r && fits 8 g && fits 8 b
  | .showClone => true
  | .showNoClone => true
  | .construct n => fits 16 n
  | .destroy => true

end Sys2Proof
end

