-- ==== Sys2Proof/Decode.lean ====
section
/-! DEFINITION. The command decoder, total over all 2^64 words (spec/30_encoding.md R70 to R76), the encoder written from
the same tables, and the match/mask rows of R73. -/

namespace Sys2Proof

/-- Why a word is no command. Either way the Controller executes `raise ERR_ILLEGAL` (R74, R75). -/
inductive Reject where
  /-- The opcode is not in the map of R73 (R75). -/
  | unassignedOpcode (op : Byte)
  /-- The opcode is assigned and a reserved field of its format is not all zero (R74). -/
  | reservedField (op : Byte)
deriving DecidableEq, Repr

/-- What the decoder answers: one of the eleven commands, or a rejection by name (R76). -/
inductive Decoded where
  | ok (i : Instr)
  | illegal (r : Reject)
deriving DecidableEq, Repr

/-- R12's `x[hi:lo]`, by its lowest bit and its width. -/
def field (w : CommandWord) (lo width : Nat) : BitVec width := w.extractLsb' lo width

/-- R70: the opcode is `w[63:56]`. -/
def opcodeOf (w : CommandWord) : Byte := field w 56 8

/-- A command if the format's reserved fields are all zero, else illegal (R74). -/
def unlessReserved (w : CommandWord) (reservedClear : Bool) (i : Instr) : Decoded :=
  if reservedClear then .ok i else .illegal (.reservedField (opcodeOf w))

/-- Format `N0`: `w[55:0]` is reserved. -/
def decodeN0 (w : CommandWord) (i : Instr) : Decoded := unlessReserved w (field w 0 56 == 0) i

/-- Format `B8`: `v = w[7:0]`, `w[55:8]` reserved. -/
def decodeB8 (w : CommandWord) : Decoded := unlessReserved w (field w 8 48 == 0) (.encodeByte (field w 0 8))

/-- Format `P24`: `p = w[23:0]`, `w[55:24]` reserved. -/
def decodeP24 (w : CommandWord) : Decoded := unlessReserved w (field w 24 32 == 0) (.decodePattern (field w 0 24))

/-- Format `L16`: `n = w[15:0]`, `w[55:16]` reserved. -/
def decodeL16 (w : CommandWord) : Decoded := unlessReserved w (field w 16 40 == 0) (.setlen (field w 0 16))

/-- Format `S1`: `clone = w[0]`, `w[55:1]` reserved. -/
def decodeS1 (w : CommandWord) : Decoded := unlessReserved w (field w 1 55 == 0) (.showFrame (field w 0 1 == 1#1))

/-- Format `CH`: `idx = w[55:40]`, `w[39:32]` reserved, then r, g, b and w_ch. -/
def decodeCH (w : CommandWord) : Decoded :=
  unlessReserved w (field w 32 8 == 0)
    (.setpix (field w 40 16) (field w 24 8) (field w 16 8) (field w 8 8) (field w 0 8))

/-- Format `CH0`: `w[55:32]` reserved, then r, g, b and w_ch. -/
def decodeCH0 (w : CommandWord) : Decoded :=
  unlessReserved w (field w 32 24 == 0) (.pack (field w 24 8) (field w 16 8) (field w 8 8) (field w 0 8))

/-- Format `PK`: `idx = w[55:40]`, `w[39:32]` reserved, `col = w[31:0]`. -/
def decodePK (w : CommandWord) : Decoded :=
  unlessReserved w (field w 32 8 == 0) (.setpixp (field w 40 16) (field w 0 32))

/-- The opcode map of R73; every other opcode is illegal (R75). -/
def decode (w : CommandWord) : Decoded :=
  let op := opcodeOf w
  if op = 0x01#8 then decodeB8 w
  else if op = 0x02#8 then decodeP24 w
  else if op = 0x03#8 then decodeCH0 w
  else if op = 0x10#8 then decodeL16 w
  else if op = 0x11#8 then decodeN0 w .clear
  else if op = 0x12#8 then decodeN0 w .pixcnt
  else if op = 0x13#8 then decodeN0 w .teardown
  else if op = 0x20#8 then decodeCH w
  else if op = 0x21#8 then decodePK w
  else if op = 0x30#8 then decodeN0 w .beginTransport
  else if op = 0x31#8 then decodeS1 w
  else .illegal (.unassignedOpcode op)

/-- The word of a command: the fields of R71's table from bit 63 down to bit 0, a reserved field written as zeros. -/
def encode : Instr → CommandWord
  | .encodeByte v => 0x01#8 ++ 0#48 ++ v
  | .decodePattern p => 0x02#8 ++ 0#32 ++ p
  | .pack r g b w => 0x03#8 ++ 0#24 ++ r ++ g ++ b ++ w
  | .setlen n => 0x10#8 ++ 0#40 ++ n
  | .clear => 0x11#8 ++ 0#56
  | .pixcnt => 0x12#8 ++ 0#56
  | .teardown => 0x13#8 ++ 0#56
  | .setpix idx r g b w => 0x20#8 ++ idx ++ 0#8 ++ r ++ g ++ b ++ w
  | .setpixp idx col => 0x21#8 ++ idx ++ 0#8 ++ col
  | .beginTransport => 0x30#8 ++ 0#56
  | .showFrame clone => 0x31#8 ++ 0#55 ++ BitVec.ofBool clone

/-- A row of R73's match/mask table. -/
structure Row where
  mnemonic : String
  pattern  : CommandWord
  mask     : CommandWord
deriving DecidableEq, Repr

/-- The row a command belongs to (R73): "a word is the instruction of a row iff `w & mask == match`". -/
def rowOf : Instr → Row
  | .encodeByte _ => ⟨"ENCODE", 0x0100000000000000, 0xFFFFFFFFFFFFFF00⟩
  | .decodePattern _ => ⟨"DECODE", 0x0200000000000000, 0xFFFFFFFFFF000000⟩
  | .pack _ _ _ _ => ⟨"PACK", 0x0300000000000000, 0xFFFFFFFF00000000⟩
  | .setlen _ => ⟨"SETLEN", 0x1000000000000000, 0xFFFFFFFFFFFF0000⟩
  | .clear => ⟨"CLEAR", 0x1100000000000000, 0xFFFFFFFFFFFFFFFF⟩
  | .pixcnt => ⟨"PIXCNT", 0x1200000000000000, 0xFFFFFFFFFFFFFFFF⟩
  | .teardown => ⟨"TEARDOWN", 0x1300000000000000, 0xFFFFFFFFFFFFFFFF⟩
  | .setpix _ _ _ _ _ => ⟨"SETPIX", 0x2000000000000000, 0xFF0000FF00000000⟩
  | .setpixp _ _ => ⟨"SETPIXP", 0x2100000000000000, 0xFF0000FF00000000⟩
  | .beginTransport => ⟨"BEGIN", 0x3000000000000000, 0xFFFFFFFFFFFFFFFF⟩
  | .showFrame _ => ⟨"SHOW", 0x3100000000000000, 0xFFFFFFFFFFFFFFFE⟩

/-- The command port takes one whole 64-bit word (R70), so a table word is its low `nbits` bits, zero-extended
(DEDUCED, safe, log entry 11). -/
def tableWord (nbits w : Nat) : CommandWord := BitVec.ofNat 64 (w % 2 ^ nbits)

/-- The instruction the decoder reads from a word numbered as spec/opcode_table.json numbers it. -/
def decodeTableWord (nbits w : Nat) : Option Instr :=
  match decode (tableWord nbits w) with
  | .ok i => some i
  | .illegal _ => none

end Sys2Proof
end

