-- ==== Sys2Proof/Machine/State.lean ====
section
/-! DEFINITION. The block's state as plain data (spec/10_state.md R20 to R34), the ways a step can stop, and the state
after reset (spec/70_reset_and_hazards.md R210). -/

namespace Sys2Proof.Machine

/-- Why a step stops with a fault. -/
inductive Fault where
  /-- Raised by a Transport step (R170) or SHOW's clone copy (R164) that would read a RAM byte holding no value: a byte
  outside the DoubleBuffer (R31; spec/93 U6: "A model reading one must `fault`"). Reachable only after the timing contract
  was broken under `CONTRACT_MODE = fault`. Safe: the machine stops where the spec gives no value. -/
  | unallocatedRead
deriving DecidableEq, Repr

/-- Why a step has no meaning. -/
inductive Refusal where
  /-- An instruction that has no meaning in the model, rejected by its mnemonic. Raised by no arm of this model. Safe. -/
  | notModelled (mnemonic : String)
  /-- Raised by `step` when neither agent has a step: the host has issued no further command (R21) and the transport is
  Idle (R169). The run is over; no command is refused by it. Safe. -/
  | noStep
deriving DecidableEq, Repr

/-- A half of the DoubleBuffer: Half A has index 0, Half B index 1 (spec/00_scope.md glossary, R26). -/
inductive Half where
  | a
  | b
deriving DecidableEq, Repr, Inhabited

/-- The two agents of R5. -/
inductive Agent where
  | controller
  | transport
deriving DecidableEq, Repr, Inhabited

/-- `Busy(h, base, len, pos)` of R32, with the list of the bytes the transport has read so far (R170: "recorded in the
transfer's byte list"). -/
structure Transfer where
  half  : Half
  base  : RamAddr
  len   : FrameLen
  pos   : Nat
  bytes : List Byte
deriving DecidableEq, Repr

/-- `TX`, the transport's transfer state (R32). -/
inductive Tx where
  | idle
  | busy (x : Transfer)
deriving DecidableEq, Repr

/-- What the block sends outward (R33). -/
inductive Event where
  | transportInit
  | transferStart (base : RamAddr) (len : FrameLen)
  | wireFrame (half : Half) (bytes : List Byte) (complete : Bool)
deriving DecidableEq, Repr

/-- The commands that the timing contract restricts (R215). -/
inductive ContractOp where
  | showFrame
  | setlen
  | teardown
deriving DecidableEq, Repr

/-- `FAULT`, the model's set of fault bits (R34): one bit `ContractViolated(op)` for each restricted command. -/
structure FaultBits where
  onShow     : Bool
  onSetlen   : Bool
  onTeardown : Bool
deriving DecidableEq, Repr

/-- No fault bit set. -/
def FaultBits.empty : FaultBits := { onShow := false, onSetlen := false, onTeardown := false }

/-- The buffer RAM as a list of (address, byte) pairs, addresses strictly rising. An address not listed holds no value:
spec/10_state.md R31 gives the bytes outside an allocation no value, and a read of one faults (spec/93 U6). DEDUCED, safe, log
entry 5. -/
abbrev Memory := List Host.Cell

/-- The canonical form: addresses strictly rising. (No entry can equal what an unlisted address reads as, which is no value.) -/
abbrev Memory.wf (m : Memory) : Prop := m.Pairwise fun x y => x.1 < y.1

/-- Everything the spec gives the block, and the model's own inputs (the last three fields). -/
structure State where
  /-- VARIANT (R22) and the parameters BUF_CAP (R9) and CONTRACT_MODE (R10), fixed for the block's lifetime. -/
  cfg        : Config
  /-- VALID: a DoubleBuffer is held (R23). -/
  valid      : Bool
  /-- N, the pixel count (R24). -/
  n          : Count
  /-- FRAME_SIZE, the size of one half in bytes (R25). -/
  frameSize  : FrameLen
  /-- ACTIVE, the half open for writes (R26). -/
  active     : Half
  /-- BEGUN: the transport has been initialised (R27). -/
  begun      : Bool
  /-- STATUS, the completion code of the last command (R28). -/
  status     : BitVec 8
  /-- RESULT, the last returned value (R29). -/
  result     : Word32
  /-- RAM, the buffer memory (R31). -/
  ram        : Memory
  /-- TX, the transport's transfer state (R32). -/
  tx         : Tx
  /-- The event history, oldest first (R33). -/
  events     : List Event
  /-- FAULT (R34). -/
  faultBits  : FaultBits
  /-- The program: the command words the host issues, in order (R21). -/
  program    : List CommandWord
  /-- The index of the next command in that sequence (R21: no width limit). -/
  pc         : Nat
  /-- The model's own input: which agent moves at each step where both could (R168 fixes no speed ratio).
  DESIGN CHOICE, safe, log entry 3. -/
  schedule   : List Agent
  /-- The model's own input: the outcomes of the coming transfers (R11).
  DESIGN CHOICE, safe, log entry 4. -/
  draws      : List Draw
  /-- The model's own counter: how many outcomes were taken from the free value `Config.freeDraw`.
  DESIGN CHOICE, safe, log entry 4. -/
  drawCount  : Nat
deriving DecidableEq, Repr

/-- R210, for a block configured as `c`. The program and the two input lists are empty: nothing has been issued yet. -/
def State.resetWith (c : Config) : State :=
  { cfg := c, valid := false, n := 0, frameSize := 0, active := .a, begun := false, status := 0, result := 0, ram := [],
    tx := .idle, events := [], faultBits := .empty, program := [], pc := 0, schedule := [], draws := [], drawCount := 0 }

/-- The machine right after reset, at the configuration of `Config.default` (DESIGN CHOICE, unsafe for a
claim about this one state, log entry 1). -/
def State.reset : State := State.resetWith Config.default

end Sys2Proof.Machine
end

