-- ==== Sys2Proof/Machine/Flags.lean ====
section
/-! DEFINITION. The status codes (spec/60_exceptions.md R190). STATUS is the block's only condition register; there are no
other flags (R20). -/

namespace Sys2Proof.Machine

/-- The seven completion codes of R190, by name. -/
inductive Status where
  | ok
  | errIndex
  | errAlloc
  | errIllegal
  | errNotBegun
  | errDisabled
  | errPattern
deriving DecidableEq, Repr

/-- The numeric values of R190. -/
def statusCode : Status → BitVec 8
  | .ok => 0
  | .errIndex => 1
  | .errAlloc => 2
  | .errIllegal => 3
  | .errNotBegun => 4
  | .errDisabled => 5
  | .errPattern => 6

/-- DECODE's completion code: OK for a codeword, else ERR_PATTERN (R105). -/
def patternStatus (codeword : Bool) : Status := if codeword then .ok else .errPattern

/-- `FAULT` with `ContractViolated(op)` added (R215). A bit once set stays set (R34). -/
def FaultBits.add (f : FaultBits) : ContractOp → FaultBits
  | .showFrame => { f with onShow := true }
  | .setlen => { f with onSetlen := true }
  | .teardown => { f with onTeardown := true }

end Sys2Proof.Machine
end

