-- ==== Sys2Proof/Machine/Operands.lean ====
section
/-! DEFINITION. The encoding table and its inverse (spec/40_encoder.md R100 to R102), colour packing and unpacking (R106,
R142), and the layout of the DoubleBuffer (spec/20_memory.md R51 to R54). -/

namespace Sys2Proof.Machine

/-- `c`, channelsPerPixel (R6). -/
def channels : Variant → Nat
  | .rgb => 3
  | .rgbw => 4

/-- The 3-bit transport pattern of one data bit: `110` for 1, `100` for 0 (R100). -/
def bitGroup (dataBit : Bool) : Pattern := if dataBit then 0b110#24 else 0b100#24

/-- The generation algorithm of R100: from data bit 7 down to 0, shift by a group and append the bit's pattern. -/
def enc (v : Byte) : Pattern :=
  [7, 6, 5, 4, 3, 2, 1, 0].foldl (fun p i => (p <<< 3) ||| bitGroup (v.getLsbD i)) 0#24

/-- `LUT[v]`, the read-only encoding table (R15, R30): its contents are fixed by R100, and nothing writes it
(DEDUCED, safe, log entry 12). -/
def lut (v : Byte) : Pattern := enc v

/-- `dec(p)`: the sum of the middle bits `p[3i+1]`, each shifted to its place (R102). -/
def dec (p : Pattern) : Byte :=
  [0, 1, 2, 3, 4, 5, 6, 7].foldl (fun v i => v + (if p.getLsbD (3 * i + 1) then 1#8 <<< i else 0#8)) 0#8

/-- R102: a pattern is a codeword iff every group starts with a 1 and ends with a 0. -/
def isCodeword (p : Pattern) : Bool := (p &&& 0x924924#24 == 0x924924#24) && (p &&& 0x249249#24 == 0#24)

/-- PACK's value (R106): `0xWWRRGGBB`, or `0x00RRGGBB` in the RGB variant, where `w` is ignored. -/
def packColor (k : Variant) (r g b w : Byte) : Word32 :=
  match k with
  | .rgbw => w ++ r ++ g ++ b
  | .rgb => 0#8 ++ r ++ g ++ b

/-- The R field of a packed colour, `col[23:16]` (R55). -/
def colR (col : Word32) : Byte := col.extractLsb' 16 8

/-- The G field, `col[15:8]` (R55). -/
def colG (col : Word32) : Byte := col.extractLsb' 8 8

/-- The B field, `col[7:0]` (R55). -/
def colB (col : Word32) : Byte := col.extractLsb' 0 8

/-- The W field, `col[31:24]` (R55). -/
def colW (col : Word32) : Byte := col.extractLsb' 24 8

/-- The `n` bytes of a value in `MemWrite`'s order, most significant byte first (R13). -/
def bigEndian (n : Nat) (v : BitVec (8 * n)) : List Byte :=
  (List.range n).map fun j => v.extractLsb' (8 * (n - 1 - j)) 8

/-- The three stored bytes of an encoded triplet (R54). -/
def tripletBytes (p : Pattern) : List Byte := bigEndian 3 p

/-- The bytes of a pixel slot: the encoded channels in the order G, R, B, then W for RGBW (R53, R140). -/
def slotBytes (k : Variant) (r g b w : Byte) : List Byte :=
  tripletBytes (lut g) ++ tripletBytes (lut r) ++ tripletBytes (lut b) ++
    match k with
    | .rgb => []
    | .rgbw => tripletBytes (lut w)

/-- The bytes of `n` cleared pixel slots: `n * c` copies of `encode(0)` (R121, R122). -/
def clearedSlots (k : Variant) (n : Nat) : List Byte :=
  (List.replicate (n * channels k) (tripletBytes (lut 0))).flatten

/-- One half as SETLEN initialises it: preamble 0, cleared slots, trailer 0 (R52, R121). -/
def clearedFrame (k : Variant) (n : Nat) : List Byte := 0#8 :: (clearedSlots k n ++ [0#8])

/-- `FrameSize(n) = n * c * 3 + 2`, exact (R120). -/
def frameBytes (k : Variant) (n : Nat) : Nat := n * channels k * 3 + 2

/-- The half index (R26). -/
def halfIndex : Half → Nat
  | .a => 0
  | .b => 1

/-- `1 - h`: the half a flip selects (R162). -/
def Half.other : Half → Half
  | .a => .b
  | .b => .a

/-- `HalfBase(h) = h * FS` (R51). -/
def halfBase (fs : Nat) (h : Half) : Nat := halfIndex h * fs

/-- `SlotAddr(h, i) = h*FS + 1 + i*3*c` (R52). -/
def slotAddr (k : Variant) (fs : Nat) (h : Half) (i : Nat) : Nat := halfBase fs h + 1 + i * 3 * channels k

end Sys2Proof.Machine
end

