-- ==== Sys2Proof/Machine/Ops.lean ====
section
/-! DEFINITION. The named operations every command is built from: buffer RAM primitives (spec/00_scope.md R13), register
updates, completing and raising (R14, spec/60_exceptions.md R199), the timing contract's check
(spec/70_reset_and_hazards.md R215), and the transport's steps (spec/43_transmit.md R166, R170, R171). -/

namespace Sys2Proof.Machine

/-- What a step or a meaning answers. -/
abbrev Result := Host.Outcome State Fault Refusal

/-! ### Buffer RAM -/

/-- The byte at an address, or none where the address holds no value (R31). -/
def Memory.read : Memory → Nat → Option Byte
  | [], _ => none
  | c :: m, a => if a = c.1 then some c.2 else Memory.read m a

/-- Write one byte, keeping the addresses strictly rising. -/
def Memory.write : Memory → Nat → Byte → Memory
  | [], a, v => [(a, v)]
  | c :: m, a, v =>
    if a < c.1 then (a, v) :: c :: m
    else if a = c.1 then (a, v) :: m
    else c :: Memory.write m a v

/-- `MemRead(a, n)` (R13): the `n` bytes from `a` up, or none if one of them holds no value. -/
def Memory.readBytes (m : Memory) (a : Nat) : Nat → Option (List Byte)
  | 0 => some []
  | n + 1 =>
    match Memory.read m a, Memory.readBytes m (a + 1) n with
    | some v, some vs => some (v :: vs)
    | _, _ => none

/-- Write a list of bytes from `a` up. The addresses differ, so the order of the byte writes does not matter. -/
def Memory.writeBytes (m : Memory) (a : Nat) : List Byte → Memory
  | [] => m
  | v :: vs => Memory.write (Memory.writeBytes m (a + 1) vs) a v

/-- `MemWrite(a, n, v)` (R13): the `n`-byte value most significant byte first. -/
def Memory.memWrite (m : Memory) (a n : Nat) (v : BitVec (8 * n)) : Memory := Memory.writeBytes m a (bigEndian n v)

/-- `Copy(dst, src, n)` (R13), reading every source byte before any destination byte is written; none if a source byte
holds no value. -/
def Memory.copy (m : Memory) (dst src n : Nat) : Option Memory :=
  match Memory.readBytes m src n with
  | some vs => some (Memory.writeBytes m dst vs)
  | none => none

/-! ### Registers -/

/-- `STATUS <- S` (R28). -/
def State.setStatus (s : State) (c : Status) : State := { s with status := statusCode c }

/-- `RESULT <- v` (R29). -/
def State.setResult (s : State) (v : Word32) : State := { s with result := v }

/-- The model's pc advances by exactly 1 for a command (R21). -/
def State.advance (s : State) : State := { s with pc := s.pc + 1 }

/-- Replace the buffer RAM. -/
def State.setRam (s : State) (m : Memory) : State := { s with ram := m }

/-- `ACTIVE <- h` (R26). -/
def State.setActive (s : State) (h : Half) : State := { s with active := h }

/-- `BEGUN <- v` (R27). -/
def State.setBegun (s : State) (v : Bool) : State := { s with begun := v }

/-- Replace the transport's transfer state (R32). -/
def State.setTx (s : State) (x : Tx) : State := { s with tx := x }

/-- `Emit(e)` appends an event to the history (R14, R33). -/
def State.emit (s : State) (e : Event) : State := { s with events := s.events ++ [e] }

/-- `FAULT` gains `ContractViolated(op)` (R215). -/
def State.recordViolation (s : State) (op : ContractOp) : State := { s with faultBits := s.faultBits.add op }

/-- Give up the DoubleBuffer (R121, R123): `VALID`, `N`, `FRAME_SIZE` and `ACTIVE` become 0 and every RAM byte is
unallocated, so it holds no value (R31). -/
def State.release (s : State) : State :=
  { s with valid := false, n := 0, frameSize := 0, active := .a, ram := [] }

/-- SETLEN's successful allocation (R121): the registers, and RAM holding two equal cleared halves and nothing else. -/
def State.allocate (s : State) (n : Count) : State :=
  let fs := frameBytes s.cfg.variant n.toNat
  let half := clearedFrame s.cfg.variant n.toNat
  { s with valid := true, n := n, frameSize := BitVec.ofNat 20 fs, active := .a,
           ram := Memory.writeBytes (Memory.writeBytes [] fs half) 0 half }

/-- `FS` as a number. -/
def State.fs (s : State) : Nat := s.frameSize.toNat

/-- `HalfBase(h)` in this state (R51). -/
def State.base (s : State) (h : Half) : Nat := halfBase s.fs h

/-- `SlotAddr(h, i)` in this state (R52). -/
def State.slot (s : State) (h : Half) (i : Nat) : Nat := slotAddr s.cfg.variant s.fs h i

/-! ### Completing and raising -/

/-- A command completes: its status is written and the host goes on to the next command (R21, R28). -/
def finish (c : Status) (s : State) : Result := .next (s.setStatus c).advance

/-- A command completes with `STATUS <- OK`. -/
def complete (s : State) : Result := finish .ok s

/-- `raise S` (R14): `STATUS <- S`, nothing else of the block changes, and the Controller goes on to the next command.
It is the block's whole exception mechanism: nothing is saved and no control is transferred, so nothing returns (R199, R200). -/
def raise (c : Status) (s : State) : Result := finish c s

/-- What a word that is no command does: `raise ERR_ILLEGAL` (R74, R75, R193). -/
def raiseIllegal (s : State) : Result := raise .errIllegal s

/-! ### The transport -/

/-- The transport's outcome of the transfer that ends now (R11): the next of the given outcomes, else a free value. -/
def State.nextDraw (s : State) : Draw :=
  match s.draws with
  | d :: _ => d
  | [] => Config.freeDraw s.drawCount

/-- That outcome is used up. -/
def State.dropDraw (s : State) : State :=
  match s.draws with
  | _ :: ds => { s with draws := ds }
  | [] => { s with drawCount := s.drawCount + 1 }

/-- The `WireFrame` event of a transfer that ends with outcome `d` (R171). -/
def wireFrameOf (x : Transfer) : Draw → Event
  | .ok => .wireFrame x.half x.bytes true
  | .fail k => .wireFrame x.half (x.bytes.take k) false

/-- `StartTransfer(h)` (R166): the whole FrameBuffer of half `h`. -/
def startTransfer (h : Half) (s : State) : State :=
  (s.emit (.transferStart (BitVec.ofNat 21 (s.base h)) s.frameSize)).setTx
    (.busy { half := h, base := BitVec.ofNat 21 (s.base h), len := s.frameSize, pos := 0, bytes := [] })

/-- R170: read one byte and record it. -/
def readStep (x : Transfer) (s : State) : Result :=
  match Memory.read s.ram (x.base.toNat + x.pos) with
  | some v => .next (s.setTx (.busy { x with pos := x.pos + 1, bytes := x.bytes ++ [v] }))
  | none => .fault .unallocatedRead

/-- R171: end the transfer. -/
def endStep (x : Transfer) (s : State) : Result :=
  .next ((s.dropDraw.emit (wireFrameOf x s.nextDraw)).setTx .idle)

/-- One step of the Transport agent (R169 to R171). When `TX = Idle` it has none. -/
def transportStep (s : State) : Result :=
  match s.tx with
  | .idle => .refused .noStep
  | .busy x => if x.pos < x.len.toNat then readStep x s else endStep x s

/-! ### The timing contract -/

/-- `ContractCheck(op)` before the command's effect `k` (R215). While a transfer is in flight: under `host_duty` the
Controller holds the command (its pc does not advance) and the Transport takes its next step; under `fault` the violation is
recorded and the command proceeds; an old transfer then stays in flight (DEDUCED, unsafe for the line after a violation, log
entry 9). -/
def contractCheck (op : ContractOp) (s : State) (k : State → Result) : Result :=
  match s.tx with
  | .idle => k s
  | .busy _ =>
    match s.cfg.contractMode with
    | .hostDuty => transportStep s
    | .fault => k (s.recordViolation op)

end Sys2Proof.Machine
end

