-- ==== Sys2Proof/Machine/Buffer.lean ====
section
/-! DEFINITION. The pixel buffer manager's commands SETLEN, CLEAR, PIXCNT and TEARDOWN (spec/41_buffer.md R121 to R124). -/

namespace Sys2Proof.Machine

/-- SETLEN (R121): the old allocation is given up first, then `2 * FrameSize(n)` bytes either fit `BUF_CAP` or do not. -/
def execSetlen (n : Count) (s : State) : Result :=
  contractCheck .setlen s fun s =>
    if 2 * frameBytes s.cfg.variant n.toNat ≤ s.cfg.bufCap.val then complete (s.release.allocate n)
    else finish .errAlloc s.release

/-- CLEAR (R122): every pixel slot of the active half becomes `encode(0)`; in the disabled state nothing is written. -/
def execClear (s : State) : Result :=
  if s.valid then
    complete (s.setRam (Memory.writeBytes s.ram (s.slot s.active 0) (clearedSlots s.cfg.variant s.n.toNat)))
  else complete s

/-- PIXCNT (R124): `RESULT <- zext_32(N)`. -/
def execPixcnt (s : State) : Result := complete (s.setResult (s.n.setWidth 32))

/-- TEARDOWN (R123): release the buffer; `BEGUN` returns to 0, `RESULT` is kept (spec/90 C10). -/
def execTeardown (s : State) : Result :=
  contractCheck .teardown s fun s => complete (s.release.setBegun false)

end Sys2Proof.Machine
end

