-- ==== Sys2Proof/Machine/Encoder.lean ====
section
/-! DEFINITION. The encoder commands ENCODE, DECODE and PACK (spec/40_encoder.md R104 to R106). Their reserved-bit checks
are the decoder's. -/

namespace Sys2Proof.Machine

/-- ENCODE (R104): `RESULT <- zext_32(LUT[v])`. -/
def execEncodeByte (v : Byte) (s : State) : Result := complete (s.setResult ((lut v).setWidth 32))

/-- DECODE (R105): `RESULT` is the middle-bit extraction, written whether or not the operand is a codeword. -/
def execDecodePattern (p : Pattern) (s : State) : Result :=
  finish (patternStatus (isCodeword p)) (s.setResult ((dec p).setWidth 32))

/-- PACK (R106): the packed colour of the block's variant. -/
def execPack (r g b w : Byte) (s : State) : Result := complete (s.setResult (packColor s.cfg.variant r g b w))

end Sys2Proof.Machine
end

