-- ==== Sys2Proof/Machine/Pixel.lean ====
section
/-! DEFINITION. The pixel colour setter's commands SETPIX and SETPIXP (spec/42_pixel.md R140 to R142). -/

namespace Sys2Proof.Machine

/-- `WritePixel(i, r, g, b, wv)` (R140): the slot of pixel `i` in the active half. -/
def State.writePixel (s : State) (i : Nat) (r g b w : Byte) : State :=
  s.setRam (Memory.writeBytes s.ram (s.slot s.active i) (slotBytes s.cfg.variant r g b w))

/-- What both setters do: refuse an index outside `0..N-1` with ERR_INDEX, else write the pixel (R141, R142). -/
def setPixel (idx : Count) (r g b w : Byte) (s : State) : Result :=
  if idx < s.n then complete (s.writePixel idx.toNat r g b w) else raise .errIndex s

/-- SETPIX (R141). -/
def execSetpix (idx : Count) (r g b w : Byte) (s : State) : Result := setPixel idx r g b w s

/-- SETPIXP (R142): the channels are the fields of the packed colour. -/
def execSetpixp (idx : Count) (col : Word32) (s : State) : Result :=
  setPixel idx (colR col) (colG col) (colB col) (colW col) s

end Sys2Proof.Machine
end

