-- ==== Sys2Proof/Machine/Transmit.lean ====
section
/-! DEFINITION. The transmission controller's commands BEGIN and SHOW (spec/43_transmit.md R161, R162). -/

namespace Sys2Proof.Machine

/-- BEGIN (R161): the first one since reset or TEARDOWN asks for `TransportInit`; a second is a no-op with status OK. -/
def execBeginTransport (s : State) : Result :=
  if s.begun then complete s else complete ((s.emit .transportInit).setBegun true)

/-- SHOW after its checks (R162): start the transfer of the active half, flip, and with `clone` copy the half just sent onto
the newly active half. -/
def sendFrame (clone : Bool) (s : State) : Result :=
  let sent := s.active
  let t := (startTransfer sent s).setActive sent.other
  if clone then
    match Memory.copy t.ram (t.base sent.other) (t.base sent) t.fs with
    | some m => complete (t.setRam m)
    | none => .fault .unallocatedRead
  else complete t

/-- SHOW (R162). The checks stand in the order of R198: NOT_BEGUN, DISABLED, then the timing contract (R215). -/
def execShowFrame (clone : Bool) (s : State) : Result :=
  if !s.begun then raise .errNotBegun s
  else if !s.valid then raise .errDisabled s
  else contractCheck .showFrame s fun s => sendFrame clone s

end Sys2Proof.Machine
end

