-- ==== Sys2Proof/Machine/Dispatch.lean ====
section
/-! DEFINITION. The meaning of each command, one arm per constructor of Instr. -/

namespace Sys2Proof.Machine

def exec (i : Instr) (s : State) : Host.Outcome State Fault Refusal :=
  match i with
  | .encodeByte v => Sys2Proof.Machine.execEncodeByte v s
  | .decodePattern p => Sys2Proof.Machine.execDecodePattern p s
  | .pack r g b w => Sys2Proof.Machine.execPack r g b w s
  | .setlen n => Sys2Proof.Machine.execSetlen n s
  | .clear => Sys2Proof.Machine.execClear s
  | .pixcnt => Sys2Proof.Machine.execPixcnt s
  | .teardown => Sys2Proof.Machine.execTeardown s
  | .setpix idx r g b w => Sys2Proof.Machine.execSetpix idx r g b w s
  | .setpixp idx col => Sys2Proof.Machine.execSetpixp idx col s
  | .beginTransport => Sys2Proof.Machine.execBeginTransport s
  | .showFrame clone => Sys2Proof.Machine.execShowFrame clone s

end Sys2Proof.Machine
end

