-- ==== Sys2Proof/Machine/Agents.lean ====
section
/-! DEFINITION. Whose turn it is, and the Controller's step on one command word (spec/00_scope.md R5, spec/10_state.md R21,
spec/43_transmit.md R168). -/

namespace Sys2Proof.Machine

/-- What a step does: the Controller runs a word, the Transport steps, or neither agent has a step. -/
inductive Move where
  | runWord (w : CommandWord) (s : State)
  | transport (s : State)
  | neither
deriving DecidableEq, Repr

/-- The command the host issues next, if its sequence has one at the pc (R21). -/
def State.nextCommand (s : State) : Option CommandWord := s.program[s.pc]?

/-- Which agent moves. An agent alone in having a step takes it (R169); where both have one, the head of `schedule` says
which and is used up, and past its end the Controller goes first (log entry 3). -/
def State.nextMove (s : State) : Move :=
  match s.nextCommand, s.tx with
  | none, .idle => .neither
  | none, .busy _ => .transport s
  | some w, .idle => .runWord w s
  | some w, .busy _ =>
    match s.schedule with
    | [] => .runWord w s
    | .controller :: rest => .runWord w { s with schedule := rest }
    | .transport :: rest => .transport { s with schedule := rest }

/-- The Controller executes one word: the command it decodes to, or `raise ERR_ILLEGAL` (R74 to R76). -/
def runCommand (w : CommandWord) (s : State) : Result :=
  match decode w with
  | .ok i => exec i s
  | .illegal _ => raiseIllegal s

/-- `s` with `w` as the host's next command, and the Controller next to move. -/
def State.issueNext (s : State) (w : CommandWord) : State :=
  { s with
    program := s.program.take s.pc ++ List.replicate (s.pc - s.program.length) 0 ++ w :: s.program.drop (s.pc + 1)
    schedule :=
      match s.tx with
      | .idle => s.schedule
      | .busy _ => .controller :: s.schedule }

end Sys2Proof.Machine
end

