-- ==== Sys2Proof/Machine/Step.lean ====
section
/-! DEFINITION. One step of the block: one command of the Controller or one step of the Transport. -/

namespace Sys2Proof.Machine

/-- One step of whichever agent moves. It has none exactly when no command is left and the transport is Idle (DEDUCED, safe, log
entry 13). A command is one step, with no transport read inside it (DESIGN CHOICE, unsafe after a violation, log entry 6). -/
def step (s : State) : Host.Outcome State Fault Refusal :=
  match s.nextMove with
  | .runWord w t => runCommand w t
  | .transport t => transportStep t
  | .neither => .refused .noStep

/-- `s` with the table word `w` as the host's next command. The block fetches nothing (R64): a program is loaded by the
host from outside the machine (log entry 2), and this stands for that load. -/
def State.withFetchWord (s : State) (nbits w : Nat) : State := s.issueNext (tableWord nbits w)

end Sys2Proof.Machine
end

