-- ==== Sys2Proof/Machine/Assembler.lean ====
section
/-! DEFINITION. The assembler of spec/30_encoding.md R77 and R78: from a source line to a command, and from a line's text to a
source line. The block never sees it; it says which word a line stands for. -/

namespace Sys2Proof.Machine

/-- What a source line stands for. -/
inductive Assembled where
  /-- One command word, that of the command. -/
  | command (i : Instr)
  /-- `CONSTRUCT n`: a reset of the block and then the command (R78, R213). -/
  | resetThen (i : Instr)
deriving DecidableEq, Repr

/-- The command of a line whose numbers fit their fields (R77, R78). -/
def assembleFields : AsmLine → Assembled
  | .encodeByte v => .command (.encodeByte (.ofNat 8 v))
  | .decodePattern p => .command (.decodePattern (.ofNat 24 p))
  | .pack r g b w => .command (.pack (.ofNat 8 r) (.ofNat 8 g) (.ofNat 8 b) (.ofNat 8 w))
  | .setlen n => .command (.setlen (.ofNat 16 n))
  | .clear => .command .clear
  | .pixcnt => .command .pixcnt
  | .teardown => .command .teardown
  | .setpix idx r g b w => .command (.setpix (.ofNat 16 idx) (.ofNat 8 r) (.ofNat 8 g) (.ofNat 8 b) (.ofNat 8 w))
  | .setpixp idx col => .command (.setpixp (.ofNat 16 idx) (.ofNat 32 col))
  | .beginTransport => .command .beginTransport
  | .showFrame clone => .command (.showFrame (clone == 1))
  | .setpixRgb idx r g b => .command (.setpix (.ofNat 16 idx) (.ofNat 8 r) (.ofNat 8 g) (.ofNat 8 b) 0)
  | .packRgb r g b => .command (.pack (.ofNat 8 r) (.ofNat 8 g) (.ofNat 8 b) 0)
  | .showClone => .command (.showFrame true)
  | .showNoClone => .command (.showFrame false)
  | .construct n => .resetThen (.setlen (.ofNat 16 n))
  | .destroy => .command .teardown

/-- R77: a value that does not fit its field is an assembly error. -/
def assemble (l : AsmLine) : Option Assembled := if l.wellFormed then some (assembleFields l) else none

/-- `CONSTRUCT n` as a start of a run (R211, R213): the block reset, its host's first command `SETLEN n`. -/
def State.constructed (c : Config) (n : Count) : State :=
  { State.resetWith c with program := [encode (.setlen n)] }

/-! ### Source text

R77 gives one command per line, operands separated by commas, decimal or `0x` numbers, and `;` comments. That spaces and tabs
are the blanks, and that mnemonics are written in capitals, is the model's choice (DESIGN CHOICE, unsafe for a
claim about text, log entry 8). -/

/-- What a line's text is. -/
inductive Parsed where
  /-- No command on the line, which is no error (DESIGN CHOICE, log entry 8). -/
  | blank
  | line (l : AsmLine)
  | error
deriving DecidableEq, Repr

/-- The blanks between the parts of a line. -/
def isBlank (c : Char) : Bool := c == ' ' || c == '\t'

/-- A text without the blanks at its two ends. -/
def trimBlanks (cs : List Char) : List Char := ((cs.dropWhile isBlank).reverse.dropWhile isBlank).reverse

/-- The value of a digit in the given base. -/
def digitValue (base : Nat) (c : Char) : Option Nat :=
  let v :=
    if '0' ≤ c ∧ c ≤ '9' then c.toNat - '0'.toNat
    else if 'a' ≤ c ∧ c ≤ 'f' then c.toNat - 'a'.toNat + 10
    else if 'A' ≤ c ∧ c ≤ 'F' then c.toNat - 'A'.toNat + 10
    else base
  if v < base then some v else none

/-- The value of a run of digits read after the value so far. -/
def digitsValue (base : Nat) : Nat → List Char → Option Nat
  | acc, [] => some acc
  | acc, c :: cs =>
    match digitValue base c with
    | some d => digitsValue base (acc * base + d) cs
    | none => none

/-- R77: "A number is decimal or `0x` hexadecimal". -/
def numberOf : List Char → Option Nat
  | [] => none
  | '0' :: 'x' :: [] => none
  | '0' :: 'x' :: ds => digitsValue 16 0 ds
  | ds => digitsValue 10 0 ds

/-- A text cut at its commas. -/
def splitCommas : List Char → List (List Char)
  | [] => [[]]
  | c :: cs =>
    if c = ',' then [] :: splitCommas cs
    else
      match splitCommas cs with
      | [] => [[c]]
      | p :: ps => (c :: p) :: ps

/-- The numbers of an operand list, or none if one of them is no number. -/
def numbersOf : List (List Char) → Option (List Nat)
  | [] => some []
  | p :: ps =>
    match numberOf (trimBlanks p), numbersOf ps with
    | some v, some vs => some (v :: vs)
    | _, _ => none

/-- The operands after a mnemonic: none at all, or one or more separated by commas. -/
def operandsOf (cs : List Char) : Option (List Nat) := if cs = [] then some [] else numbersOf (splitCommas cs)

/-- The line of a mnemonic and its operands, in the operand order of R77 and R78. -/
def lineOf (mnemonic : List Char) (ops : List Nat) : Option AsmLine :=
  if mnemonic = "ENCODE".toList then match ops with | [v] => some (.encodeByte v) | _ => none
  else if mnemonic = "DECODE".toList then match ops with | [p] => some (.decodePattern p) | _ => none
  else if mnemonic = "PACK".toList then
    match ops with
    | [r, g, b, w] => some (.pack r g b w)
    | [r, g, b] => some (.packRgb r g b)
    | _ => none
  else if mnemonic = "SETLEN".toList then match ops with | [n] => some (.setlen n) | _ => none
  else if mnemonic = "CLEAR".toList then match ops with | [] => some .clear | _ => none
  else if mnemonic = "PIXCNT".toList then match ops with | [] => some .pixcnt | _ => none
  else if mnemonic = "TEARDOWN".toList then match ops with | [] => some .teardown | _ => none
  else if mnemonic = "SETPIX".toList then
    match ops with
    | [idx, r, g, b, w] => some (.setpix idx r g b w)
    | [idx, r, g, b] => some (.setpixRgb idx r g b)
    | _ => none
  else if mnemonic = "SETPIXP".toList then match ops with | [idx, col] => some (.setpixp idx col) | _ => none
  else if mnemonic = "BEGIN".toList then match ops with | [] => some .beginTransport | _ => none
  else if mnemonic = "SHOW".toList then match ops with | [c] => some (.showFrame c) | _ => none
  else if mnemonic = "SHOWC".toList then match ops with | [] => some .showClone | _ => none
  else if mnemonic = "SHOWN".toList then match ops with | [] => some .showNoClone | _ => none
  else if mnemonic = "CONSTRUCT".toList then match ops with | [n] => some (.construct n) | _ => none
  else if mnemonic = "DESTROY".toList then match ops with | [] => some .destroy | _ => none
  else none

/-- R77: "one command per line, `MNEMONIC op1, op2, ...`"; "`;` starts a comment". The rule is silent on a line with no command
(empty, only blanks, or only a comment): that it stands for no command and is no error is the model's choice (DESIGN CHOICE,
unsafe for a claim about text, log entry 8). -/
def parseLine (text : List Char) : Parsed :=
  let cs := trimBlanks (text.takeWhile (· ≠ ';'))
  if cs = [] then .blank
  else
    match operandsOf (trimBlanks (cs.dropWhile fun c => !isBlank c)) with
    | none => .error
    | some ops =>
      match lineOf (cs.takeWhile fun c => !isBlank c) ops with
      | some l => .line l
      | none => .error

end Sys2Proof.Machine
end

