-- ==== Sys2Proof/Machine/Observe.lean ====
section
/-! DEFINITION. What can be seen of a state: by the host (spec/10_state.md R20), and by the model's observation, which numbers
the registers (R20's summary table, spec/60_exceptions.md R207). No command reads anything this way. -/

namespace Sys2Proof.Machine

/-- What the host observes after a command (R20). -/
structure HostView where
  status : BitVec 8
  result : Word32
deriving DecidableEq, Repr

/-- R20: "The host can observe only `STATUS` and `RESULT` (after each command)". -/
def State.hostView (s : State) : HostView := { status := s.status, result := s.result }

/-- The value of VARIANT as its bit (R22). -/
def variantBit : Variant → Nat
  | .rgb => 0
  | .rgbw => 1

/-- The register with the given id in the summary table of spec/10_state.md section 5; there are ids 0 to 7 only. -/
def State.observeRegister (s : State) : Nat → Option Nat
  | 0 => some (variantBit s.cfg.variant)
  | 1 => some s.valid.toNat
  | 2 => some s.n.toNat
  | 3 => some s.frameSize.toNat
  | 4 => some (halfIndex s.active)
  | 5 => some s.begun.toNat
  | 6 => some s.status.toNat
  | 7 => some s.result.toNat
  | _ => none

/-- The contents of one half, or none where it holds no frame (R207, spec/92 D22). -/
def State.observeHalf (s : State) (h : Half) : Option (List Byte) :=
  if s.valid then Memory.readBytes s.ram (s.base h) s.fs else none

end Sys2Proof.Machine
end

