-- ==== Sys2Proof/Machine/Wire.lean ====
section
/-! DEFINITION. What a frame is on the line (spec/20_memory.md R56, spec/43_transmit.md R172): its bytes in list order, each
sent most significant bit first. -/

namespace Sys2Proof.Machine

/-- A byte's bits in the order they are sent, bit 7 first (R56). -/
def byteBits (v : Byte) : List Bool := [7, 6, 5, 4, 3, 2, 1, 0].map fun i => v.getLsbD i

/-- The transport bit stream of a list of bytes (R172). -/
def wireBits (bytes : List Byte) : List Bool := bytes.flatMap byteBits

/-- A pattern's 24 bits from `p[23]` down to `p[0]` (R172). -/
def patternBits (p : Pattern) : List Bool := (List.range 24).map fun j => p.getLsbD (23 - j)

/-- The bits an event puts on the line: only a `WireFrame` has any (R33). -/
def eventBits : Event → List Bool
  | .transportInit => []
  | .transferStart _ _ => []
  | .wireFrame _ bytes _ => wireBits bytes

end Sys2Proof.Machine
end

