-- ==== Sys2Proof/Safety.lean ====
section
/-! DEFINITION. What counts as a safe run: the invariants of spec/10_state.md R35 to R37 and of a transfer in flight
(spec/43_transmit.md R173, spec/70_reset_and_hazards.md R217), a final state (R34, R220), and the words the claims use. -/

namespace Sys2Proof.Machine

/-- R35: with no buffer the count and the frame size are 0 (and the active half is A, R123); with one, the frame size is
`N*c*3 + 2` and both halves fit `BUF_CAP` (R121). -/
def State.RegistersAgree (s : State) : Prop :=
  if s.valid then s.fs = frameBytes s.cfg.variant s.n.toNat ∧ 2 * s.fs ≤ s.cfg.bufCap.val
  else s.n = 0 ∧ s.frameSize = 0 ∧ s.active = .a

/-- R31: exactly the bytes of the DoubleBuffer hold values, and the list is in its canonical form. -/
def State.RamHoldsTheBuffer (s : State) : Prop :=
  Memory.wf s.ram ∧ ∀ a, (Memory.read s.ram a).isSome = decide (s.valid = true ∧ a < 2 * s.fs)

/-- R36 for one half: its preamble and its trailer are 0. -/
def State.Bracketed (s : State) (h : Half) : Prop :=
  Memory.read s.ram (s.base h) = some 0 ∧ Memory.read s.ram (s.base h + s.fs - 1) = some 0

/-- R37 for one half: every channel position of every pixel slot holds a codeword. -/
def State.SlotsHoldCodewords (s : State) (h : Half) : Prop :=
  ∀ i, i < s.n.toNat → ∀ k, k < channels s.cfg.variant →
    ∃ v : Byte, Memory.readBytes s.ram (s.slot h i + 3 * k) 3 = some (tripletBytes (lut v))

/-- R32: a transfer has read `pos` bytes, at most its length. -/
def State.TransferInRange (s : State) : Prop :=
  ∀ x, s.tx = .busy x → x.pos ≤ x.len.toNat ∧ x.bytes.length = x.pos

/-- While the timing contract has not been broken, a transfer in flight reads the whole inactive half and has recorded its
first `pos` bytes (R173, R217). -/
def State.TransferReadsInactiveHalf (s : State) : Prop :=
  ∀ x, s.tx = .busy x → s.faultBits = .empty →
    s.valid = true ∧ s.begun = true ∧ x.half = s.active.other ∧ x.base.toNat = s.base x.half ∧ x.len = s.frameSize ∧
      Memory.readBytes s.ram (s.base x.half) x.pos = some x.bytes

/-- The invariant every step keeps. -/
structure Inv (s : State) : Prop where
  registers : s.RegistersAgree
  ram : s.RamHoldsTheBuffer
  bracketed : s.valid = true → ∀ h, s.Bracketed h
  codewords : s.valid = true → ∀ h, s.SlotsHoldCodewords h
  status : s.status.toNat ≤ 6
  pc : s.pc ≤ s.program.length
  transfer : s.TransferInRange
  inactive : s.TransferReadsInactiveHalf

/-- A command restricted by the contract would be held: a transfer is in flight under `host_duty` (R215). -/
def State.Held (s : State) : Prop := s.tx ≠ .idle ∧ s.cfg.contractMode = .hostDuty

/-- The state a restricted command takes effect in once `ContractCheck` lets it proceed: with the violation recorded if a
transfer is in flight (R215). -/
def State.checked (s : State) (op : ContractOp) : State := if s.tx = .idle then s else s.recordViolation op

/-- A run may end here (R34, R220): no command left, no transfer pending, no fault bit. -/
def State.Final (s : State) : Prop := s.nextCommand = none ∧ s.tx = .idle ∧ s.faultBits = .empty

/-- What an illegal word leaves (R14, R193): STATUS is ERR_ILLEGAL and the host goes on. -/
def State.afterIllegal (s : State) : State := { s with status := 3, pc := s.pc + 1 }

/-- Whether a command is one of the three that the timing contract restricts, and which (R215). -/
def restriction : Instr → Option ContractOp
  | .showFrame _ => some .showFrame
  | .setlen _ => some .setlen
  | .teardown => some .teardown
  | .encodeByte _ => none
  | .decodePattern _ => none
  | .pack _ _ _ _ => none
  | .clear => none
  | .pixcnt => none
  | .setpix _ _ _ _ _ => none
  | .setpixp _ _ => none
  | .beginTransport => none

/-- The byte at offset `o` of a cleared half of `fs` bytes (R52, R121): the brackets are 0, the slots repeat 92 49 24. -/
def clearedByte (fs o : Nat) : Byte :=
  if o = 0 ∨ o + 1 = fs then 0x00
  else if o % 3 = 1 then 0x92
  else if o % 3 = 2 then 0x49
  else 0x24

/-- The channel at position `k` of a slot (R53): G, R, B, then W. -/
def channelAt (r g b w : Byte) : Nat → Byte
  | 0 => g
  | 1 => r
  | 2 => b
  | _ => w

/-- The command a completed Controller step ran, if the step from `s` to `t` was one: the pc advanced (R21). -/
def commandRun (s t : State) : Option Instr :=
  if t.pc = s.pc + 1 then
    match s.nextCommand with
    | some w =>
      match decode w with
      | .ok i => some i
      | .illegal _ => none
    | none => none
  else none

/-- R163's count after one step: one more for a SHOW that completed with OK, zero again after a TEARDOWN or a SETLEN that
completed with OK or ERR_ALLOC, else as before. -/
def countShow (s t : State) (k : Nat) : Nat :=
  match commandRun s t with
  | some (.showFrame _) => if t.status = 0 then k + 1 else k
  | some (.setlen _) => 0
  | some .teardown => 0
  | _ => k

/-- R163's count after `m` steps from `s`, starting at `k`. -/
def showsAfter : Nat → State → Nat → Nat
  | 0, _, k => k
  | m + 1, s, k =>
    match step s with
    | .next t => showsAfter m t (countShow s t k)
    | .fault _ => k
    | .refused _ => k

/-- A transfer in flight that reads the snapshot `snap` (R173): the half it reads still holds `snap`, and the bytes it has
read are the first `pos` of them. -/
def State.Sending (s : State) (h : Half) (snap : List Byte) : Prop :=
  ∃ x, s.tx = .busy x ∧ x.half = h ∧ x.bytes = snap.take x.pos ∧
    Memory.readBytes s.ram (s.base h) s.fs = some snap

/-- Whether an event is the end of a transfer (R171). -/
def isWireFrame : Event → Bool
  | .wireFrame _ _ _ => true
  | .transportInit => false
  | .transferStart _ _ => false

end Sys2Proof.Machine
end

