-- ==== Sys2Proof/Certificates/Slice0/Obligations.lean ====
section
/-! DEFINITION. The statements about the block, from the numbered rules of spec/. They are stated here and proved elsewhere.
Every statement holds for every configuration (VARIANT, BUF_CAP, CONTRACT_MODE), every schedule and every list of draws, since
each of these stands in the state it quantifies over. -/

open Sys2Proof Sys2Proof.Machine

/-! ### Reset and the invariant -/

/-- R210, for every configuration: the registers, an idle transport, an empty history and FAULT, and the encoding table with the
values of R100, said group by group (a 1, the data bit, a 0). R210 calls RAM unspecified and unallocated: that no address holds a
value is the model's reading of it (DEDUCED, log entry 5). -/
def Obligations.ResetLeavesTheBlockDisabled : Prop :=
  ∀ c : Config,
    (State.resetWith c).cfg = c ∧ (State.resetWith c).valid = false ∧ (State.resetWith c).n = 0 ∧
    (State.resetWith c).frameSize = 0 ∧ (State.resetWith c).active = .a ∧ (State.resetWith c).begun = false ∧
    (State.resetWith c).status = 0 ∧ (State.resetWith c).result = 0 ∧ (State.resetWith c).tx = .idle ∧
    (State.resetWith c).events = [] ∧
    (State.resetWith c).faultBits = { onShow := false, onSetlen := false, onTeardown := false } ∧
    (∀ a, Memory.read (State.resetWith c).ram a = none) ∧
    (∀ (v : Byte) (i : Nat), i < 8 →
      (lut v).getLsbD (3 * i + 2) = true ∧ (lut v).getLsbD (3 * i + 1) = v.getLsbD i ∧ (lut v).getLsbD (3 * i) = false)

/-- The invariant holds in the reset state of every configuration (R35: "The reset state satisfies both"). -/
def Obligations.ResetMeetsInv : Prop := ∀ c : Config, Inv (State.resetWith c)

/-- Every step keeps the invariant: R35 (registers), R36 (brackets), R37 (codewords), R28 (status codes), R31 (exactly the
DoubleBuffer's bytes hold values, log entry 5), R32 (a transfer in range) and R217 (an unviolated transfer reads the inactive
half). -/
def Obligations.StepKeepsInv : Prop := ∀ s t : State, Inv s → step s = .next t → Inv t

/-- While no violation is recorded, a step never faults: no command and no transport read touches an unallocated byte (R31,
log entry 5).
It is refused exactly when the host's sequence is at its end and the transport is Idle (R169). -/
def Obligations.UnviolatedStepNeverFaults : Prop :=
  ∀ s : State, Inv s → s.faultBits = .empty →
    (∀ f, step s ≠ .fault f) ∧ ((∃ r, step s = .refused r) ↔ (s.nextCommand = none ∧ s.tx = .idle))

/-! ### Encoding -/

/-- Decoding the word of any command gives the command back: no operand bit is dropped. -/
def Obligations.DecodeOfEncode : Prop := ∀ i : Instr, decode (encode i) = .ok i

/-- Each word has one meaning: a word that decodes to a command is that command's word. -/
def Obligations.DecodedWordIsItsEncoding : Prop := ∀ (w : CommandWord) (i : Instr), decode w = .ok i → encode i = w

/-- R73's match/mask form, for each of the eleven rows. -/
def Obligations.WordIsCommandIffMaskMatches : Prop :=
  ∀ w : CommandWord,
    ((∃ v, decode w = .ok (.encodeByte v)) ↔ w &&& 0xFFFFFFFFFFFFFF00#64 = 0x0100000000000000#64) ∧
    ((∃ p, decode w = .ok (.decodePattern p)) ↔ w &&& 0xFFFFFFFFFF000000#64 = 0x0200000000000000#64) ∧
    ((∃ r g b x, decode w = .ok (.pack r g b x)) ↔ w &&& 0xFFFFFFFF00000000#64 = 0x0300000000000000#64) ∧
    ((∃ n, decode w = .ok (.setlen n)) ↔ w &&& 0xFFFFFFFFFFFF0000#64 = 0x1000000000000000#64) ∧
    (decode w = .ok .clear ↔ w &&& 0xFFFFFFFFFFFFFFFF#64 = 0x1100000000000000#64) ∧
    (decode w = .ok .pixcnt ↔ w &&& 0xFFFFFFFFFFFFFFFF#64 = 0x1200000000000000#64) ∧
    (decode w = .ok .teardown ↔ w &&& 0xFFFFFFFFFFFFFFFF#64 = 0x1300000000000000#64) ∧
    ((∃ n r g b x, decode w = .ok (.setpix n r g b x)) ↔ w &&& 0xFF0000FF00000000#64 = 0x2000000000000000#64) ∧
    ((∃ n c, decode w = .ok (.setpixp n c)) ↔ w &&& 0xFF0000FF00000000#64 = 0x2100000000000000#64) ∧
    (decode w = .ok .beginTransport ↔ w &&& 0xFFFFFFFFFFFFFFFF#64 = 0x3000000000000000#64) ∧
    ((∃ c, decode w = .ok (.showFrame c)) ↔ w &&& 0xFFFFFFFFFFFFFFFE#64 = 0x3100000000000000#64)

/-- A few words written out from R71's field table, each with the command it stands for (a sanity statement). -/
def Obligations.WrittenOutWordsDecode : Prop :=
  decode 0x010000000000000A#64 = .ok (.encodeByte 10) ∧
  decode 0x0200000000926DB4#64 = .ok (.decodePattern 0x926DB4) ∧
  decode 0x030000000A141E00#64 = .ok (.pack 10 20 30 0) ∧
  decode 0x1000000000000003#64 = .ok (.setlen 3) ∧
  decode 0x20000102030405FF#64 = .illegal (.reservedField 0x20) ∧
  decode 0x2001020003040506#64 = .ok (.setpix 0x0102 3 4 5 6) ∧
  decode 0x21000100000A141E#64 = .ok (.setpixp 1 0x000A141E) ∧
  decode 0x3100000000000001#64 = .ok (.showFrame true) ∧
  decode 0x0000000000000000#64 = .illegal (.unassignedOpcode 0)

/-- R75: every opcode outside R73's map is illegal, and its word raises ERR_ILLEGAL, changing nothing but STATUS (and moving
the host on, R21). -/
def Obligations.UnassignedOpcodeRaisesIllegal : Prop :=
  ∀ (w : CommandWord) (s : State),
    ((w.extractLsb' 56 8).toNat = 0x00 ∨
     (0x04 ≤ (w.extractLsb' 56 8).toNat ∧ (w.extractLsb' 56 8).toNat ≤ 0x0F) ∨
     (0x14 ≤ (w.extractLsb' 56 8).toNat ∧ (w.extractLsb' 56 8).toNat ≤ 0x1F) ∨
     (0x22 ≤ (w.extractLsb' 56 8).toNat ∧ (w.extractLsb' 56 8).toNat ≤ 0x2F) ∨
     0x32 ≤ (w.extractLsb' 56 8).toNat) →
    runCommand w s = .next { s with status := 3, pc := s.pc + 1 }

/-- R193 and R74: a word that is no command's word, because its opcode is unassigned or a reserved bit is set, changes only
STATUS; the word's command, where there is one, is what runs otherwise (R76: each word is exactly one of the two). -/
def Obligations.WordThatIsNoCommandRaisesIllegal : Prop :=
  ∀ (w : CommandWord) (s : State),
    ((∀ i, encode i ≠ w) → runCommand w s = .next { s with status := 3, pc := s.pc + 1 }) ∧
    (∀ i, encode i = w → runCommand w s = exec i s)

/-- R77: the word of each source line whose numbers fit their fields, as the sum of its shifted fields; a number that does not
fit is an assembly error. -/
def Obligations.AssembledWordIsTheSumOfItsFields : Prop :=
  (∀ v, (v < 2 ^ 8 → ∃ i, assemble (.encodeByte v) = some (.command i) ∧ (encode i).toNat = 0x01 * 2 ^ 56 + v) ∧
    (2 ^ 8 ≤ v → assemble (.encodeByte v) = none)) ∧
  (∀ p, (p < 2 ^ 24 → ∃ i, assemble (.decodePattern p) = some (.command i) ∧ (encode i).toNat = 0x02 * 2 ^ 56 + p) ∧
    (2 ^ 24 ≤ p → assemble (.decodePattern p) = none)) ∧
  (∀ r g b w, (r < 2 ^ 8 ∧ g < 2 ^ 8 ∧ b < 2 ^ 8 ∧ w < 2 ^ 8 → ∃ i, assemble (.pack r g b w) = some (.command i) ∧
      (encode i).toNat = 0x03 * 2 ^ 56 + r * 2 ^ 24 + g * 2 ^ 16 + b * 2 ^ 8 + w) ∧
    (2 ^ 8 ≤ r ∨ 2 ^ 8 ≤ g ∨ 2 ^ 8 ≤ b ∨ 2 ^ 8 ≤ w → assemble (.pack r g b w) = none)) ∧
  (∀ n, (n < 2 ^ 16 → ∃ i, assemble (.setlen n) = some (.command i) ∧ (encode i).toNat = 0x10 * 2 ^ 56 + n) ∧
    (2 ^ 16 ≤ n → assemble (.setlen n) = none)) ∧
  (∃ i, assemble .clear = some (.command i) ∧ (encode i).toNat = 0x11 * 2 ^ 56) ∧
  (∃ i, assemble .pixcnt = some (.command i) ∧ (encode i).toNat = 0x12 * 2 ^ 56) ∧
  (∃ i, assemble .teardown = some (.command i) ∧ (encode i).toNat = 0x13 * 2 ^ 56) ∧
  (∀ n r g b w, (n < 2 ^ 16 ∧ r < 2 ^ 8 ∧ g < 2 ^ 8 ∧ b < 2 ^ 8 ∧ w < 2 ^ 8 →
      ∃ i, assemble (.setpix n r g b w) = some (.command i) ∧
        (encode i).toNat = 0x20 * 2 ^ 56 + n * 2 ^ 40 + r * 2 ^ 24 + g * 2 ^ 16 + b * 2 ^ 8 + w) ∧
    (2 ^ 16 ≤ n ∨ 2 ^ 8 ≤ r ∨ 2 ^ 8 ≤ g ∨ 2 ^ 8 ≤ b ∨ 2 ^ 8 ≤ w → assemble (.setpix n r g b w) = none)) ∧
  (∀ n c, (n < 2 ^ 16 ∧ c < 2 ^ 32 → ∃ i, assemble (.setpixp n c) = some (.command i) ∧
      (encode i).toNat = 0x21 * 2 ^ 56 + n * 2 ^ 40 + c) ∧
    (2 ^ 16 ≤ n ∨ 2 ^ 32 ≤ c → assemble (.setpixp n c) = none)) ∧
  (∃ i, assemble .beginTransport = some (.command i) ∧ (encode i).toNat = 0x30 * 2 ^ 56) ∧
  (∀ c, (c < 2 → ∃ i, assemble (.showFrame c) = some (.command i) ∧ (encode i).toNat = 0x31 * 2 ^ 56 + c) ∧
    (2 ≤ c → assemble (.showFrame c) = none))

/-- R78 and R213: each pseudo-instruction is its expansion, and `CONSTRUCT n` is a reset whose first step is `SETLEN n`. -/
def Obligations.PseudoInstructionsExpand : Prop :=
  (∀ idx r g b, assemble (.setpixRgb idx r g b) = assemble (.setpix idx r g b 0)) ∧
  (∀ r g b, assemble (.packRgb r g b) = assemble (.pack r g b 0)) ∧
  assemble .showClone = assemble (.showFrame 1) ∧ assemble .showNoClone = assemble (.showFrame 0) ∧
  assemble .destroy = assemble .teardown ∧
  (∀ n, n < 2 ^ 16 → assemble (.construct n) = some (.resetThen (.setlen (BitVec.ofNat 16 n)))) ∧
  (∀ n, 2 ^ 16 ≤ n → assemble (.construct n) = none) ∧
  ∀ (c : Config) (n : Count), ∃ t, step (State.constructed c n) = exec (.setlen n) (State.constructed c n) ∧
    step (State.constructed c n) = .next t ∧ t.nextCommand = none

/-! ### Buffer RAM -/

/-- R13: `MemWrite` stores a value most significant byte first and touches no other byte, `MemRead` returns the bytes in
ascending address order, and `Copy`, defined where every source byte holds a value, takes each as it was before the copy; each
keeps the canonical form. -/
def Obligations.MemoryPrimitives : Prop :=
  (∀ (m : Memory) (a n : Nat) (v : BitVec (8 * n)),
    (∀ j, j < n → Memory.read (Memory.memWrite m a n v) (a + j) = some (v.extractLsb' (8 * (n - j) - 8) 8)) ∧
    (∀ x, x < a ∨ a + n ≤ x → Memory.read (Memory.memWrite m a n v) x = Memory.read m x) ∧
    (Memory.wf m → Memory.wf (Memory.memWrite m a n v))) ∧
  (∀ (m : Memory) (a n : Nat) (vs : List Byte), Memory.readBytes m a n = some vs ↔
    vs.length = n ∧ ∀ j v, vs[j]? = some v → Memory.read m (a + j) = some v) ∧
  (∀ (m m' : Memory) (dst src n : Nat), Memory.copy m dst src n = some m' →
    (∀ j, j < n → Memory.read m' (dst + j) = Memory.read m (src + j)) ∧
    (∀ x, x < dst ∨ dst + n ≤ x → Memory.read m' x = Memory.read m x) ∧
    (Memory.wf m → Memory.wf m')) ∧
  (∀ (m : Memory) (dst src n : Nat), (∃ vs, Memory.readBytes m src n = some vs) → ∃ m', Memory.copy m dst src n = some m')

/-! ### One step -/

/-- A step runs the word at the pc as the command it decodes to: at once if the transport is Idle; with a transfer in flight
when the schedule's head says Controller (which is then used up) or the schedule is empty; and where the head says Transport,
or no command is left, the step is the Transport's. The schedule is the model's own (log entry 3). -/
def Obligations.StepRunsTheDecodedCommand : Prop :=
  ∀ (s : State) (w : CommandWord) (i : Instr), s.program[s.pc]? = some w → decode w = .ok i →
    (s.tx = .idle → step s = exec i s) ∧
    (s.schedule = [] → step s = exec i s) ∧
    (∀ x rest, s.tx = .busy x → s.schedule = .controller :: rest → step s = exec i { s with schedule := rest }) ∧
    (∀ x rest, s.tx = .busy x → s.schedule = .transport :: rest → step s = transportStep { s with schedule := rest })

/-- The same for a word that is no command: when the Controller moves, it raises ERR_ILLEGAL (R74, R75), and where the schedule's
head says Transport the step is the Transport's. That the schedule says who moves, and that the Controller does past its end, is
the model's choice (log entry 3). With no command left, the step is the Transport's, or there is none (R169), which the model
answers as the refusal `noStep` (log entry 13). -/
def Obligations.StepOnIllegalWordOrNoWord : Prop :=
  (∀ (s : State) (w : CommandWord) (r : Reject), s.program[s.pc]? = some w → decode w = .illegal r →
    (s.tx = .idle → step s = .next { s with status := 3, pc := s.pc + 1 }) ∧
    (s.schedule = [] → step s = .next { s with status := 3, pc := s.pc + 1 }) ∧
    (∀ x rest, s.tx = .busy x → s.schedule = .controller :: rest →
      step s = .next { s with schedule := rest, status := 3, pc := s.pc + 1 }) ∧
    (∀ x rest, s.tx = .busy x → s.schedule = .transport :: rest → step s = transportStep { s with schedule := rest })) ∧
  (∀ s : State, s.program[s.pc]? = none →
    (∀ x, s.tx = .busy x → step s = transportStep s) ∧ (s.tx = .idle → step s = .refused .noStep))

/-- R21: the model's pc advances by exactly 1 for every command the Controller runs, whatever its status. The one exception is
a command that `host_duty` holds, which has no step (R215): that the step is then the Transport's is the model's choice (log
entry 3). -/
def Obligations.PcAdvancesByOnePerCommand : Prop :=
  ∀ (w : CommandWord) (s t : State), runCommand w s = .next t →
    (¬ s.Held → t.pc = s.pc + 1) ∧
    (t.pc = s.pc + 1 ∨
      (t.pc = s.pc ∧ s.Held ∧ transportStep s = .next t ∧ ∃ i op, decode w = .ok i ∧ restriction i = some op))

/-! ### The encoder commands -/

/-- R101: data bit i of v is the middle bit of group i, whose first bit is 1 and last bit 0; in mask form too; and the closed
form as a sum. -/
def Obligations.EncodingTableClosedForm : Prop :=
  ∀ v : Byte,
    lut v = 0x924924#24 |||
      ((((v.setWidth 24 >>> 0) &&& 1#24) <<< 1) + (((v.setWidth 24 >>> 1) &&& 1#24) <<< 4) +
       (((v.setWidth 24 >>> 2) &&& 1#24) <<< 7) + (((v.setWidth 24 >>> 3) &&& 1#24) <<< 10) +
       (((v.setWidth 24 >>> 4) &&& 1#24) <<< 13) + (((v.setWidth 24 >>> 5) &&& 1#24) <<< 16) +
       (((v.setWidth 24 >>> 6) &&& 1#24) <<< 19) + (((v.setWidth 24 >>> 7) &&& 1#24) <<< 22)) ∧
    (∀ i, i < 8 → (lut v).getLsbD (3 * i + 2) = true ∧ (lut v).getLsbD (3 * i + 1) = v.getLsbD i ∧
      (lut v).getLsbD (3 * i) = false) ∧
    lut v &&& 0x924924#24 = 0x924924#24 ∧ lut v &&& 0x249249#24 = 0#24

/-- R102: the middle bits give v back, and the codewords, the patterns that pass both masks, are exactly the 256 values of the
table, one for each v. -/
def Obligations.CodewordsAreExactlyTheTable : Prop :=
  (∀ (p : Pattern) (i : Nat), i < 8 → (dec p).getLsbD i = p.getLsbD (3 * i + 1)) ∧
  (∀ v : Byte, dec (lut v) = v) ∧
  (∀ p : Pattern, (p &&& 0x924924#24 = 0x924924#24 ∧ p &&& 0x249249#24 = 0#24) ↔ ∃ v, lut v = p) ∧
  (∀ v v' : Byte, lut v = lut v' → v = v')

/-- R104: ENCODE as a whole: its word, the illegal words of its opcode, and its effect, RESULT being the 24-bit pattern of v
zero-extended. Nothing but RESULT, STATUS and the pc changes, and it completes in every state. -/
def Obligations.EncodeReturnsThePattern : Prop :=
  (∀ (w : CommandWord) (s : State), w.extractLsb' 56 8 = 0x01#8 →
    runCommand w s = if w.extractLsb' 8 48 ≠ 0#48 then .next { s with status := 3, pc := s.pc + 1 }
      else exec (.encodeByte (w.extractLsb' 0 8)) s) ∧
  (∀ (v : Byte) (s : State), ∃ t, exec (.encodeByte v) s = .next t ∧
    t = { s with result := t.result, status := 0, pc := s.pc + 1 } ∧
    t.result.extractLsb' 24 8 = 0#8 ∧
    ∀ i, i < 8 → t.result.getLsbD (3 * i + 2) = true ∧ t.result.getLsbD (3 * i + 1) = v.getLsbD i ∧
      t.result.getLsbD (3 * i) = false)

/-- R105: DECODE as a whole: RESULT is the middle bit of each group, also where the status is ERR_PATTERN. -/
def Obligations.DecodeExtractsMiddleBits : Prop :=
  (∀ (w : CommandWord) (s : State), w.extractLsb' 56 8 = 0x02#8 →
    runCommand w s = if w.extractLsb' 24 32 ≠ 0#32 then .next { s with status := 3, pc := s.pc + 1 }
      else exec (.decodePattern (w.extractLsb' 0 24)) s) ∧
  (∀ (p : Pattern) (s : State), ∃ t, exec (.decodePattern p) s = .next t ∧
    t = { s with result := t.result, status := t.status, pc := s.pc + 1 } ∧
    t.status = (if p &&& 0x924924#24 = 0x924924#24 ∧ p &&& 0x249249#24 = 0#24 then 0 else 6) ∧
    t.result.extractLsb' 8 24 = 0#24 ∧
    ∀ i, i < 8 → t.result.getLsbD i = p.getLsbD (3 * i + 1))

/-- R106: PACK as a whole, in both variants. -/
def Obligations.PackArrangesTheChannels : Prop :=
  (∀ (w : CommandWord) (s : State), w.extractLsb' 56 8 = 0x03#8 →
    runCommand w s = if w.extractLsb' 32 24 ≠ 0#24 then .next { s with status := 3, pc := s.pc + 1 }
      else exec (.pack (w.extractLsb' 24 8) (w.extractLsb' 16 8) (w.extractLsb' 8 8) (w.extractLsb' 0 8)) s) ∧
  (∀ (r g b x : Byte) (s : State), exec (.pack r g b x) s = .next { s with
      result := (if s.cfg.variant = .rgbw then x.setWidth 32 <<< 24 else 0#32) ||| (r.setWidth 32 <<< 16) |||
        (g.setWidth 32 <<< 8) ||| b.setWidth 32
      status := 0
      pc := s.pc + 1 })

/-! ### The buffer commands -/

/-- R120: the frame size, exact for every count: 9n+2 for RGB and 12n+2 for RGBW, below 2^20. -/
def Obligations.FrameSizeIsExact : Prop :=
  ∀ n : Count, frameBytes .rgb n.toNat = 9 * n.toNat + 2 ∧ frameBytes .rgbw n.toNat = 12 * n.toNat + 2 ∧
    (∀ k, frameBytes k n.toNat = n.toNat * channels k * 3 + 2 ∧ frameBytes k n.toNat < 2 ^ 20 ∧
      2 * frameBytes k n.toNat < 2 ^ 21)

/-- R121: SETLEN as a whole, where the contract does not hold it (R215). If `2 * FS` fits, every byte of both halves has its
cleared value and no other byte holds a value; if not, the block is left disabled with ERR_ALLOC. BEGUN and RESULT are kept. R121
calls the bytes given up unallocated and unspecified: that they hold no value is the model's reading (DEDUCED, log entry 5), and so
is that a violating SETLEN leaves the old transfer in flight (DEDUCED, log entry 9). -/
def Obligations.SetlenReallocatesAndClears : Prop :=
  (∀ (w : CommandWord) (s : State), w.extractLsb' 56 8 = 0x10#8 →
    runCommand w s = if w.extractLsb' 16 40 ≠ 0#40 then .next { s with status := 3, pc := s.pc + 1 }
      else exec (.setlen (w.extractLsb' 0 16)) s) ∧
  (∀ (n : Count) (s : State) (fs : Nat), ¬ s.Held → fs = n.toNat * channels s.cfg.variant * 3 + 2 →
    (2 * fs ≤ s.cfg.bufCap.val → ∃ t, exec (.setlen n) s = .next t ∧
      t = { s.checked .setlen with
        valid := true, n := n, frameSize := t.frameSize, active := .a, status := 0, ram := t.ram, pc := s.pc + 1 } ∧
      t.frameSize.toNat = fs ∧
      ∀ a, Memory.read t.ram a = if a < 2 * fs then some (clearedByte fs (a % fs)) else none) ∧
    (s.cfg.bufCap.val < 2 * fs → ∃ t, exec (.setlen n) s = .next t ∧
      t = { s.checked .setlen with
        valid := false, n := 0, frameSize := 0, active := .a, status := 2, ram := t.ram, pc := s.pc + 1 } ∧
      ∀ a, Memory.read t.ram a = none))

/-- R122: CLEAR as a whole: the slots of the active half become `encode(0)`; every other byte of RAM is unchanged, and in the
disabled state all of it. -/
def Obligations.ClearResetsTheActiveSlots : Prop :=
  (∀ (w : CommandWord) (s : State), w.extractLsb' 56 8 = 0x11#8 →
    runCommand w s = if w.extractLsb' 0 56 ≠ 0#56 then .next { s with status := 3, pc := s.pc + 1 }
      else exec .clear s) ∧
  (∀ s : State, ∃ t, exec .clear s = .next t ∧ t = { s with ram := t.ram, status := 0, pc := s.pc + 1 } ∧
    (s.valid = false → t.ram = s.ram) ∧
    (s.valid = true →
      (∀ i k j, i < s.n.toNat → k < channels s.cfg.variant → j < 3 →
        Memory.read t.ram (s.slot s.active i + 3 * k + j) = some ((lut 0).extractLsb' (16 - 8 * j) 8)) ∧
      ∀ a, a < s.slot s.active 0 ∨ s.slot s.active 0 + s.n.toNat * (3 * channels s.cfg.variant) ≤ a →
        Memory.read t.ram a = Memory.read s.ram a))

/-- R124: PIXCNT as a whole. -/
def Obligations.PixcntReturnsTheCount : Prop :=
  (∀ (w : CommandWord) (s : State), w.extractLsb' 56 8 = 0x12#8 →
    runCommand w s = if w.extractLsb' 0 56 ≠ 0#56 then .next { s with status := 3, pc := s.pc + 1 }
      else exec .pixcnt s) ∧
  (∀ s : State, ∃ t, exec .pixcnt s = .next t ∧ t = { s with result := t.result, status := 0, pc := s.pc + 1 } ∧
    t.result.toNat = s.n.toNat)

/-- R123: TEARDOWN as a whole, where the contract does not hold it (R215): the buffer registers and BEGUN return to their reset
values, and RESULT, FAULT and the history are kept. R123 calls every byte of RAM unallocated: that none holds a value any more is the
model's reading (DEDUCED, log entry 5), and so is that a violating TEARDOWN leaves the old transfer in flight (DEDUCED, log entry
9). -/
def Obligations.TeardownReleasesTheBuffer : Prop :=
  (∀ (w : CommandWord) (s : State), w.extractLsb' 56 8 = 0x13#8 →
    runCommand w s = if w.extractLsb' 0 56 ≠ 0#56 then .next { s with status := 3, pc := s.pc + 1 }
      else exec .teardown s) ∧
  (∀ s : State, ¬ s.Held → ∃ t, exec .teardown s = .next t ∧
    t = { s.checked .teardown with
      valid := false, n := 0, frameSize := 0, active := .a, begun := false, status := 0, ram := t.ram, pc := s.pc + 1 } ∧
    ∀ a, Memory.read t.ram a = none)

/-! ### The pixel commands -/

/-- R141 with R140 and R191: SETPIX as a whole. An index outside `0..N-1` reports ERR_INDEX and writes nothing; else the slot's
bytes are the triplets of G, R, B and (RGBW) W, and every byte outside the slot is unchanged. -/
def Obligations.SetpixWritesTheSlot : Prop :=
  (∀ (w : CommandWord) (s : State), w.extractLsb' 56 8 = 0x20#8 →
    runCommand w s = if w.extractLsb' 32 8 ≠ 0#8 then .next { s with status := 3, pc := s.pc + 1 }
      else exec (.setpix (w.extractLsb' 40 16) (w.extractLsb' 24 8) (w.extractLsb' 16 8) (w.extractLsb' 8 8)
        (w.extractLsb' 0 8)) s) ∧
  (∀ (idx : Count) (r g b x : Byte) (s : State),
    (s.n.toNat ≤ idx.toNat → exec (.setpix idx r g b x) s = .next { s with status := 1, pc := s.pc + 1 }) ∧
    (idx.toNat < s.n.toNat → ∃ t, exec (.setpix idx r g b x) s = .next t ∧
      t = { s with ram := t.ram, status := 0, pc := s.pc + 1 } ∧
      (∀ k j, k < channels s.cfg.variant → j < 3 →
        Memory.read t.ram (s.slot s.active idx.toNat + 3 * k + j) =
          some ((lut (channelAt r g b x k)).extractLsb' (16 - 8 * j) 8)) ∧
      ∀ a, a < s.slot s.active idx.toNat ∨ s.slot s.active idx.toNat + 3 * channels s.cfg.variant ≤ a →
        Memory.read t.ram a = Memory.read s.ram a))

/-- R142: SETPIXP as a whole: as SETPIX, with the channels unpacked from `0xWWRRGGBB`. -/
def Obligations.SetpixpWritesTheUnpackedColour : Prop :=
  (∀ (w : CommandWord) (s : State), w.extractLsb' 56 8 = 0x21#8 →
    runCommand w s = if w.extractLsb' 32 8 ≠ 0#8 then .next { s with status := 3, pc := s.pc + 1 }
      else exec (.setpixp (w.extractLsb' 40 16) (w.extractLsb' 0 32)) s) ∧
  (∀ (idx : Count) (col : Word32) (s : State),
    (s.n.toNat ≤ idx.toNat → exec (.setpixp idx col) s = .next { s with status := 1, pc := s.pc + 1 }) ∧
    (idx.toNat < s.n.toNat → ∃ t, exec (.setpixp idx col) s = .next t ∧
      t = { s with ram := t.ram, status := 0, pc := s.pc + 1 } ∧
      (∀ k j, k < channels s.cfg.variant → j < 3 →
        Memory.read t.ram (s.slot s.active idx.toNat + 3 * k + j) =
          some ((lut (channelAt ((col >>> 16).setWidth 8) ((col >>> 8).setWidth 8) (col.setWidth 8)
            ((col >>> 24).setWidth 8) k)).extractLsb' (16 - 8 * j) 8)) ∧
      ∀ a, a < s.slot s.active idx.toNat ∨ s.slot s.active idx.toNat + 3 * channels s.cfg.variant ≤ a →
        Memory.read t.ram a = Memory.read s.ram a))

/-- R143: SETPIXP of what PACK returns leaves the same state as SETPIX of the channels, on the same block. -/
def Obligations.PackedAndExplicitChannelsMatch : Prop :=
  ∀ (idx : Count) (r g b x : Byte) (s t : State), exec (.pack r g b x) s = .next t →
    exec (.setpixp idx t.result) s = exec (.setpix idx r g b x) s

/-- R140 and R122 on an allocated buffer: SETPIX, SETPIXP and CLEAR leave every byte of the inactive half, the preamble and the
trailer unchanged, and no byte outside the DoubleBuffer gains a value (log entry 5). -/
def Obligations.PixelCommandsKeepTheInactiveHalf : Prop :=
  ∀ (s t : State) (i : Instr), Inv s → s.valid = true →
    (i = .clear ∨ (∃ n r g b x, i = .setpix n r g b x) ∨ ∃ n c, i = .setpixp n c) → exec i s = .next t →
    (∀ o, o < s.fs → Memory.read t.ram (s.base s.active.other + o) = Memory.read s.ram (s.base s.active.other + o)) ∧
    Memory.read t.ram (s.base s.active) = Memory.read s.ram (s.base s.active) ∧
    Memory.read t.ram (s.base s.active + s.fs - 1) = Memory.read s.ram (s.base s.active + s.fs - 1) ∧
    ∀ a, 2 * s.fs ≤ a → Memory.read t.ram a = none

/-! ### BEGIN and SHOW -/

/-- R161: BEGIN as a whole: one `TransportInit` for the first, none for a second; always OK. -/
def Obligations.BeginInitialisesTheTransportOnce : Prop :=
  (∀ (w : CommandWord) (s : State), w.extractLsb' 56 8 = 0x30#8 →
    runCommand w s = if w.extractLsb' 0 56 ≠ 0#56 then .next { s with status := 3, pc := s.pc + 1 }
      else exec .beginTransport s) ∧
  (∀ s : State,
    (s.begun = false → exec .beginTransport s =
      .next { s with begun := true, events := s.events ++ [.transportInit], status := 0, pc := s.pc + 1 }) ∧
    (s.begun = true → exec .beginTransport s = .next { s with status := 0, pc := s.pc + 1 }))

/-- R194, R195 and SHOW's part of R198: the first of ILLEGAL, NOT_BEGUN and DISABLED that applies is reported, and nothing else
changes: no transfer, no flip, no copy, whether or not a transfer is in flight. -/
def Obligations.ShowReportsTheFirstError : Prop :=
  ∀ (w : CommandWord) (s : State), w.extractLsb' 56 8 = 0x31#8 →
    (w.extractLsb' 1 55 ≠ 0#55 → runCommand w s = .next { s with status := 3, pc := s.pc + 1 }) ∧
    (w.extractLsb' 1 55 = 0#55 →
      runCommand w s = exec (.showFrame (w.getLsbD 0)) s ∧
      (s.begun = false → runCommand w s = .next { s with status := 4, pc := s.pc + 1 }) ∧
      (s.begun = true → s.valid = false → runCommand w s = .next { s with status := 5, pc := s.pc + 1 }))

/-- R162 with R166, `clone = 0`, where the contract does not hold it: the active half's transfer starts, the active half flips
at once, and no byte of RAM is written. -/
def Obligations.ShowSendsAndFlips : Prop :=
  ∀ s : State, s.begun = true → s.valid = true → ¬ s.Held →
    exec (.showFrame false) s = .next { s.checked .showFrame with
      active := (if s.active = .a then .b else .a)
      tx := .busy { half := s.active, base := BitVec.ofNat 21 (s.base s.active), len := s.frameSize, pos := 0, bytes := [] }
      events := s.events ++ [.transferStart (BitVec.ofNat 21 (s.base s.active)) s.frameSize]
      status := 0
      pc := s.pc + 1 }

/-- R162 with R164, `clone = 1`, where the sent half's bytes hold values: as without, and the newly active half becomes equal
to the sent half; every byte outside the newly active half is unchanged. -/
def Obligations.ShowCloneCopiesTheSentHalf : Prop :=
  ∀ (s : State) (bytes : List Byte), s.begun = true → s.valid = true → ¬ s.Held →
    Memory.readBytes s.ram (s.base s.active) s.fs = some bytes →
    ∃ t, exec (.showFrame true) s = .next t ∧
      t = { s.checked .showFrame with
        active := (if s.active = .a then .b else .a)
        tx := .busy { half := s.active, base := BitVec.ofNat 21 (s.base s.active), len := s.frameSize, pos := 0, bytes := [] }
        events := s.events ++ [.transferStart (BitVec.ofNat 21 (s.base s.active)) s.frameSize]
        status := 0
        ram := t.ram
        pc := s.pc + 1 } ∧
      Memory.readBytes t.ram (s.base s.active.other) s.fs = some bytes ∧
      ∀ a, a < s.base s.active.other ∨ s.base s.active.other + s.fs ≤ a → Memory.read t.ram a = Memory.read s.ram a

/-- R164 on an allocated buffer: after an accepted SHOW with `clone = 1` both halves hold the bytes the sent half held when SHOW
began; with `clone = 0` each half keeps the bytes it held. No byte is written but the newly active half's, and with `clone = 0`
none at all. -/
def Obligations.CloneMakesTheHalvesEqual : Prop :=
  ∀ (s : State) (clone : Bool), Inv s → s.begun = true → s.valid = true → ¬ s.Held →
    ∃ t, exec (.showFrame clone) s = .next t ∧ t.status = 0 ∧ t.active = s.active.other ∧
      ∃ sent other, s.observeHalf s.active = some sent ∧ s.observeHalf s.active.other = some other ∧
        t.observeHalf s.active = some sent ∧
        t.observeHalf s.active.other = some (if clone then sent else other) ∧
        ∀ a, clone = false ∨ a < s.base s.active.other ∨ s.base s.active.other + s.fs ≤ a →
          Memory.read t.ram a = Memory.read s.ram a

/-- R163: from a state with Half A active, after any number of steps Half A is active iff the number of SHOWs that completed with
OK, counted anew from each completed SETLEN or TEARDOWN, is even. -/
def Obligations.ActiveHalfAlternates : Prop :=
  ∀ (m : Nat) (s t : State), s.active = .a → core.run m s = .next t → (t.active = .a ↔ showsAfter m s 0 % 2 = 0)

/-! ### The contract -/

/-- R215, `host_duty`: while a transfer is in flight, SETLEN, TEARDOWN and a SHOW that passes its status checks have no step,
and the command stays the host's next one. That the step is then the Transport's is the model's choice (log entry 3). -/
def Obligations.HostDutyHoldsTheCommand : Prop :=
  ∀ (s : State) (i : Instr) (op : ContractOp), s.Held → restriction i = some op →
    (op = .showFrame → s.begun = true ∧ s.valid = true) →
    exec i s = transportStep s ∧
    ∀ t, exec i s = .next t → t.pc = s.pc ∧ t.program = s.program ∧ t.status = s.status

/-- R215, `fault`: while a transfer is in flight, the same command adds `ContractViolated(op)` to FAULT and then proceeds exactly
as it does with the transport Idle; a SHOW's new transfer replaces the old one, which emits no `WireFrame`; SETLEN and TEARDOWN
leave the transfer as it is. -/
def Obligations.FaultModeRecordsAndProceeds : Prop :=
  ∀ (s t : State) (x : Transfer) (i : Instr) (op : ContractOp), s.tx = .busy x → s.cfg.contractMode = .fault →
    restriction i = some op → (op = .showFrame → s.begun = true ∧ s.valid = true) →
    exec i { s with tx := .idle } = .next t →
    exec i s = .next { t with
      faultBits := s.faultBits.add op
      tx := if op = .showFrame then t.tx else .busy x } ∧
    ∀ e, e ∈ t.events → e ∈ s.events ∨ isWireFrame e = false

/-- R22 and R34: no step changes the configuration; FAULT is written only in `fault` mode, a bit once set stays set, and a
state with a bit set is never final. -/
def Obligations.ConfigurationFixedAndFaultBitsKept : Prop :=
  (∀ s t : State, step s = .next t →
    t.cfg = s.cfg ∧
    (s.cfg.contractMode = .hostDuty → t.faultBits = s.faultBits) ∧
    (s.faultBits.onShow = true → t.faultBits.onShow = true) ∧
    (s.faultBits.onSetlen = true → t.faultBits.onSetlen = true) ∧
    (s.faultBits.onTeardown = true → t.faultBits.onTeardown = true)) ∧
  ∀ s : State, (s.faultBits.onShow = true ∨ s.faultBits.onSetlen = true ∨ s.faultBits.onTeardown = true) → ¬ s.Final

/-- R217: with a transfer in flight and no violation, each of the other eight commands runs at once, leaves the transfer as it
is, and leaves every byte of the half being read unchanged. -/
def Obligations.UnrestrictedCommandsAreNoHazard : Prop :=
  ∀ (s : State) (x : Transfer) (i : Instr), Inv s → s.faultBits = .empty → s.tx = .busy x → restriction i = none →
    ∃ t, exec i s = .next t ∧ t.pc = s.pc + 1 ∧ t.tx = .busy x ∧ t.faultBits = s.faultBits ∧
      ∀ a, x.base.toNat ≤ a → a < x.base.toNat + x.len.toNat → Memory.read t.ram a = Memory.read s.ram a

/-! ### The transport -/

/-- R169 and R170: an Idle transport has no step; a Busy one with bytes left reads the byte at `base + pos` and records it, and
changes nothing else; with none left, its next step ends the transfer. -/
def Obligations.TransportReadsOneByte : Prop :=
  ∀ s : State,
    (s.tx = .idle → ∀ t, transportStep s ≠ .next t) ∧
    (∀ x v, s.tx = .busy x → x.pos < x.len.toNat → Memory.read s.ram (x.base.toNat + x.pos) = some v →
      transportStep s = .next { s with tx := .busy { x with pos := x.pos + 1, bytes := x.bytes ++ [v] } }) ∧
    ∀ x, s.tx = .busy x → x.pos = x.len.toNat → ∃ t, transportStep s = .next t ∧ t.tx = .idle

/-- A transport read of a byte that holds no value stops as a named fault (spec/93 U6: a model reading one must fault). -/
def Obligations.UnallocatedReadFaults : Prop :=
  ∀ (s : State) (x : Transfer), s.tx = .busy x → x.pos < x.len.toNat →
    Memory.read s.ram (x.base.toNat + x.pos) = none → transportStep s = .fault .unallocatedRead

/-- R171: a transfer whose bytes are all read ends with an outcome: the whole list reaches the line for `ok`, its first k bytes
for `fail(k)`, and the transport becomes Idle. No register and no byte of RAM changes. -/
def Obligations.TransferEndsWithADraw : Prop :=
  ∀ (s : State) (x : Transfer), s.tx = .busy x → x.pos = x.len.toNat →
    ∃ (d : Draw) (t : State), transportStep s = .next t ∧
      t = { s with tx := .idle, events := t.events, draws := t.draws, drawCount := t.drawCount } ∧
      (d = .ok → t.events = s.events ++ [.wireFrame x.half x.bytes true]) ∧
      (∀ k, d = .fail k → t.events = s.events ++ [.wireFrame x.half (x.bytes.take k) false])

/-- The model's choice (log entry 4) of where R11's outcome comes from: the next of the given outcomes, which is used up, and past
their end a free value, which nothing constrains. -/
def Obligations.OutcomeIsTheNextInput : Prop :=
  ∀ (s : State) (x : Transfer), s.tx = .busy x → x.pos = x.len.toNat →
    (∀ d rest, s.draws = d :: rest → transportStep s =
      .next { s with tx := .idle, events := s.events ++ [wireFrameOf x d], draws := rest }) ∧
    (s.draws = [] → transportStep s =
      .next { s with tx := .idle, events := s.events ++ [wireFrameOf x (Config.freeDraw s.drawCount)],
                     drawCount := s.drawCount + 1 })

/-- R173, the snapshot law, one step at a time. An accepted SHOW starts a transfer of the bytes the sent half then holds; while
no violation is recorded each step keeps that half and the bytes read so far in agreement with that snapshot, until the transfer
ends; and what it then puts on the line is the snapshot, or for a failed transfer its first k bytes. -/
def Obligations.WireFrameIsTheSnapshot : Prop :=
  (∀ (s t : State) (clone : Bool), Inv s → ¬ s.Held → exec (.showFrame clone) s = .next t → t.status = 0 →
    ∃ snap, s.observeHalf s.active = some snap ∧ t.Sending s.active snap) ∧
  (∀ (s t : State) (h : Half) (snap : List Byte), Inv s → s.Sending h snap → step s = .next t → t.faultBits = .empty →
    t.Sending h snap ∧ t.events = s.events ∨
    t.tx = .idle ∧ (t.events = s.events ++ [.wireFrame h snap true] ∨
      ∃ k, t.events = s.events ++ [.wireFrame h (snap.take k) false]))

/-- R172: on the line a frame is its bytes, bit 7 first; for an allocated half these are 8 zero bits, the 24 bits of each
channel's pattern from bit 23 down, pixel by pixel in the order of the slots, and 8 zero bits. -/
def Obligations.FrameOnTheLine : Prop :=
  (∀ (bytes : List Byte) (j : Nat), (wireBits bytes)[j]? = (bytes[j / 8]?).map fun v => v.getLsbD (7 - j % 8)) ∧
  (∀ (s : State) (h : Half), Inv s → s.valid = true →
    ∃ (bytes : List Byte) (vals : List Byte), s.observeHalf h = some bytes ∧
      vals.length = s.n.toNat * channels s.cfg.variant ∧
      (∀ i k v, i < s.n.toNat → k < channels s.cfg.variant → vals[i * channels s.cfg.variant + k]? = some v →
        Memory.readBytes s.ram (s.slot h i + 3 * k) 3 = some (tripletBytes (lut v))) ∧
      wireBits bytes =
        List.replicate 8 false ++ vals.flatMap (fun v => patternBits (lut v)) ++ List.replicate 8 false)

/-- R220 bounded: under `host_duty`, with no violation, while no command is left or the next one is held, a transfer in flight
ends after exactly `len - pos + 1` steps, whatever the schedule, and the command is still the next one. -/
def Obligations.HeldTransferEnds : Prop :=
  ∀ (s : State) (x : Transfer), Inv s → s.faultBits = .empty → s.cfg.contractMode = .hostDuty → s.tx = .busy x →
    (s.nextCommand = none ∨ ∃ w i op, s.nextCommand = some w ∧ decode w = .ok i ∧ restriction i = some op) →
    ∃ t, core.run (x.len.toNat - x.pos + 1) s = .next t ∧ t.tx = .idle ∧ t.pc = s.pc ∧ t.ram = s.ram ∧
      t.hostView = s.hostView

/-- R165 and R32, over whole runs: the transport's outcomes never reach the block. Two runs that differ only in the draws stay
equal step by step in every register, in RAM, in the transfer state and in FAULT; only what the line received may differ. -/
def Obligations.DrawsNeverReachTheBlock : Prop :=
  ∀ (m : Nat) (s t : State) (ds : List Draw) (k : Nat), core.run m s = .next t →
    ∃ t', core.run m { s with draws := ds, drawCount := k } = .next t' ∧
      t' = { t with events := t'.events, draws := t'.draws, drawCount := t'.drawCount } ∧
      t'.events.filter (fun e => !isWireFrame e) = t.events.filter (fun e => !isWireFrame e) ∧
      t'.events.length = t.events.length

/-- R173's consequence, under `host_duty`: the order in which the two agents move never shows. Two runs to the end of the host's
sequence that differ only in the schedule end in the same state: every register, every byte of RAM and the whole history. -/
def Obligations.ScheduleNeverShows : Prop :=
  ∀ (m m' : Nat) (s t t' : State) (sched : List Agent), Inv s → s.faultBits = .empty → s.cfg.contractMode = .hostDuty →
    core.run m s = .next t → t.nextCommand = none → t.tx = .idle →
    core.run m' { s with schedule := sched } = .next t' → t'.nextCommand = none → t'.tx = .idle →
    t' = { t with schedule := t'.schedule }

/-! ### Whole-machine rules -/

/-- The register writers of R23 to R27 and R29: over all commands and both agents, a step that changes a register is a
completed command of the list the rule gives. -/
def Obligations.OnlyTheListedCommandsWriteARegister : Prop :=
  ∀ s t : State, step s = .next t →
    ((t.valid ≠ s.valid ∨ t.n ≠ s.n ∨ t.frameSize ≠ s.frameSize) →
      (∃ n, commandRun s t = some (.setlen n)) ∨ commandRun s t = some .teardown) ∧
    (t.active ≠ s.active →
      (∃ n, commandRun s t = some (.setlen n)) ∨ commandRun s t = some .teardown ∨
        ∃ c, commandRun s t = some (.showFrame c) ∧ t.status = 0 ∧ t.active = s.active.other) ∧
    (t.begun ≠ s.begun →
      (commandRun s t = some .beginTransport ∧ t.begun = true) ∨ (commandRun s t = some .teardown ∧ t.begun = false)) ∧
    (t.result ≠ s.result →
      (∃ v, commandRun s t = some (.encodeByte v)) ∨ (∃ p, commandRun s t = some (.decodePattern p)) ∨
        (∃ r g b x, commandRun s t = some (.pack r g b x)) ∨ commandRun s t = some .pixcnt)

/-- R28 and R190: every word the Controller completes writes STATUS with one of the codes 0 to 6, each only by the commands
and for the cause of R190's table; a Transport step and a held command leave it. -/
def Obligations.StatusCodesByCommand : Prop :=
  ∀ s t : State, step s = .next t →
    (t.pc = s.pc → t.status = s.status) ∧
    (t.pc = s.pc + 1 →
      (t.status = 0 ∧ ∃ i, commandRun s t = some i) ∨
      (t.status = 1 ∧ ∃ idx, s.n.toNat ≤ BitVec.toNat idx ∧
        ((∃ r g b x, commandRun s t = some (.setpix idx r g b x)) ∨ ∃ c, commandRun s t = some (.setpixp idx c))) ∨
      (t.status = 2 ∧ ∃ n, commandRun s t = some (.setlen n) ∧
        s.cfg.bufCap.val < 2 * frameBytes s.cfg.variant n.toNat) ∨
      (t.status = 3 ∧ commandRun s t = none) ∨
      (t.status = 4 ∧ s.begun = false ∧ ∃ c, commandRun s t = some (.showFrame c)) ∨
      (t.status = 5 ∧ s.valid = false ∧ ∃ c, commandRun s t = some (.showFrame c)) ∨
      (t.status = 6 ∧ ∃ p, commandRun s t = some (.decodePattern p) ∧ isCodeword p = false))

/-- R33: the history is only ever appended to, by at most one event a step. -/
def Obligations.HistoryOnlyGrows : Prop :=
  ∀ s t : State, step s = .next t → t.events = s.events ∨ ∃ e, t.events = s.events ++ [e]

/-- R59: issued twice in a row, ENCODE, DECODE, PACK, PIXCNT and CLEAR leave what they leave once (but for the pc, which counts
commands), and so do SETLEN, SETPIX, SETPIXP, TEARDOWN and BEGIN. -/
def Obligations.RepeatedCommandsAreIdempotent : Prop :=
  ∀ (s t u : State) (i : Instr), Inv s → s.tx = .idle → (∀ c, i ≠ .showFrame c) →
    exec i s = .next t → exec i t = .next u → u = { t with pc := t.pc + 1 }
end

