-- ==== Sys2Proof/Laws/Decode.lean ====
section
/-! SUPPORT. The decoder and the encoder in arithmetic: a field of a word, an encoded word and the choice of format by opcode, as
numbers. -/

namespace Sys2Proof

theorem toNat_append_mul {n m : Nat} (x : BitVec n) (y : BitVec m) : (x ++ y).toNat = x.toNat * 2 ^ m + y.toNat := by
  rw [BitVec.toNat_append, Nat.shiftLeft_eq, Nat.mul_comm, Nat.two_pow_add_eq_or_of_lt y.isLt]

theorem field_toNat (w : CommandWord) (lo n : Nat) : (field w lo n).toNat = w.toNat / 2 ^ lo % 2 ^ n := by
  simp [field, BitVec.extractLsb'_toNat, Nat.shiftRight_eq_div_pow]

theorem opcodeOf_toNat (w : CommandWord) : (opcodeOf w).toNat = w.toNat / 2 ^ 56 % 2 ^ 8 := field_toNat w 56 8

theorem field_eq_zero_iff (w : CommandWord) (lo n : Nat) : field w lo n = 0 ↔ w.toNat / 2 ^ lo % 2 ^ n = 0 := by
  rw [← field_toNat, BitVec.toNat_eq]; simp

theorem unlessReserved_ok {w : CommandWord} {lo n : Nat} {i j : Instr} :
    unlessReserved w (field w lo n == 0) i = .ok j ↔ w.toNat / 2 ^ lo % 2 ^ n = 0 ∧ i = j := by
  simp only [unlessReserved, beq_iff_eq, field_eq_zero_iff]
  split <;> simp [*]

/-! ### The format of each opcode -/

theorem decode_of_opcode_01 {w : CommandWord} (h : opcodeOf w = 0x01#8) : decode w = decodeB8 w := by
  simp [decode, h]

theorem decode_of_opcode_02 {w : CommandWord} (h : opcodeOf w = 0x02#8) : decode w = decodeP24 w := by
  simp [decode, h]

theorem decode_of_opcode_03 {w : CommandWord} (h : opcodeOf w = 0x03#8) : decode w = decodeCH0 w := by
  simp [decode, h]

theorem decode_of_opcode_10 {w : CommandWord} (h : opcodeOf w = 0x10#8) : decode w = decodeL16 w := by
  simp [decode, h]

theorem decode_of_opcode_11 {w : CommandWord} (h : opcodeOf w = 0x11#8) : decode w = decodeN0 w .clear := by
  simp [decode, h]

theorem decode_of_opcode_12 {w : CommandWord} (h : opcodeOf w = 0x12#8) : decode w = decodeN0 w .pixcnt := by
  simp [decode, h]

theorem decode_of_opcode_13 {w : CommandWord} (h : opcodeOf w = 0x13#8) : decode w = decodeN0 w .teardown := by
  simp [decode, h]

theorem decode_of_opcode_20 {w : CommandWord} (h : opcodeOf w = 0x20#8) : decode w = decodeCH w := by
  simp [decode, h]

theorem decode_of_opcode_21 {w : CommandWord} (h : opcodeOf w = 0x21#8) : decode w = decodePK w := by
  simp [decode, h]

theorem decode_of_opcode_30 {w : CommandWord} (h : opcodeOf w = 0x30#8) : decode w = decodeN0 w .beginTransport := by
  simp [decode, h]

theorem decode_of_opcode_31 {w : CommandWord} (h : opcodeOf w = 0x31#8) : decode w = decodeS1 w := by
  simp [decode, h]

/-- A word that decodes to a command has one of the eleven opcodes. -/
theorem opcode_of_decode_ok {w : CommandWord} {i : Instr} (h : decode w = .ok i) :
    opcodeOf w = 0x01#8 ∨ opcodeOf w = 0x02#8 ∨ opcodeOf w = 0x03#8 ∨ opcodeOf w = 0x10#8 ∨ opcodeOf w = 0x11#8 ∨
    opcodeOf w = 0x12#8 ∨ opcodeOf w = 0x13#8 ∨ opcodeOf w = 0x20#8 ∨ opcodeOf w = 0x21#8 ∨ opcodeOf w = 0x30#8 ∨
    opcodeOf w = 0x31#8 := by
  by_contra hn
  simp only [not_or] at hn
  obtain ⟨h1, h2, h3, h4, h5, h6, h7, h8, h9, h10, h11⟩ := hn
  simp [decode, h1, h2, h3, h4, h5, h6, h7, h8, h9, h10, h11] at h

/-! ### The word of each command -/

theorem encode_encodeByte_toNat (v : Byte) : (encode (.encodeByte v)).toNat = 0x01 * 2 ^ 56 + v.toNat := by
  simp only [encode, toNat_append_mul, BitVec.toNat_ofNat]; omega

theorem encode_decodePattern_toNat (p : Pattern) : (encode (.decodePattern p)).toNat = 0x02 * 2 ^ 56 + p.toNat := by
  simp only [encode, toNat_append_mul, BitVec.toNat_ofNat]; omega

theorem encode_pack_toNat (r g b w : Byte) : (encode (.pack r g b w)).toNat =
    0x03 * 2 ^ 56 + r.toNat * 2 ^ 24 + g.toNat * 2 ^ 16 + b.toNat * 2 ^ 8 + w.toNat := by
  simp only [encode, toNat_append_mul, BitVec.toNat_ofNat]; omega

theorem encode_setlen_toNat (n : Count) : (encode (.setlen n)).toNat = 0x10 * 2 ^ 56 + n.toNat := by
  simp only [encode, toNat_append_mul, BitVec.toNat_ofNat]; omega

theorem encode_clear_toNat : (encode .clear).toNat = 0x11 * 2 ^ 56 := by decide

theorem encode_pixcnt_toNat : (encode .pixcnt).toNat = 0x12 * 2 ^ 56 := by decide

theorem encode_teardown_toNat : (encode .teardown).toNat = 0x13 * 2 ^ 56 := by decide

theorem encode_setpix_toNat (n : Count) (r g b w : Byte) : (encode (.setpix n r g b w)).toNat =
    0x20 * 2 ^ 56 + n.toNat * 2 ^ 40 + r.toNat * 2 ^ 24 + g.toNat * 2 ^ 16 + b.toNat * 2 ^ 8 + w.toNat := by
  simp only [encode, toNat_append_mul, BitVec.toNat_ofNat]; omega

theorem encode_setpixp_toNat (n : Count) (col : Word32) : (encode (.setpixp n col)).toNat =
    0x21 * 2 ^ 56 + n.toNat * 2 ^ 40 + col.toNat := by
  simp only [encode, toNat_append_mul, BitVec.toNat_ofNat]; omega

theorem encode_beginTransport_toNat : (encode .beginTransport).toNat = 0x30 * 2 ^ 56 := by decide

theorem encode_showFrame_toNat (c : Bool) : (encode (.showFrame c)).toNat = 0x31 * 2 ^ 56 + c.toNat := by
  cases c <;> decide

end Sys2Proof
end

