-- ==== Sys2Proof/Laws/Memory.lean ====
section
/-! SUPPORT. The laws of buffer RAM: what a read sees after a write, that every operation keeps the canonical form, and that two
memories in that form which read alike are equal. -/

namespace Sys2Proof.Machine

theorem Memory.read_write (m : Memory) (a b : Nat) (v : Byte) :
    Memory.read (Memory.write m a v) b = if b = a then some v else Memory.read m b := by
  induction m with
  | nil => simp [Memory.write, Memory.read]
  | cons c m ih =>
    simp only [Memory.write]
    split
    · simp only [Memory.read]
    · split
      · next h => subst h; simp only [Memory.read]; split <;> rfl
      · simp only [Memory.read, ih]
        split
        · next hb => subst hb; simp [Ne.symm ‹_›]
        · rfl

theorem Memory.read_writeBytes (m : Memory) (a b : Nat) (vs : List Byte) :
    Memory.read (Memory.writeBytes m a vs) b =
      if a ≤ b ∧ b < a + vs.length then vs[b - a]? else Memory.read m b := by
  induction vs generalizing a with
  | nil => simp [Memory.writeBytes]
  | cons v vs ih =>
    simp only [Memory.writeBytes, Memory.read_write, ih, List.length_cons]
    by_cases hb : b = a
    · subst hb; simp
    · by_cases h : a + 1 ≤ b ∧ b < a + 1 + vs.length
      · obtain ⟨d, rfl⟩ : ∃ d, b = a + 1 + d := ⟨b - (a + 1), by omega⟩
        rw [if_neg hb, if_pos h, if_pos (by omega), show a + 1 + d - a = d + 1 by omega]
        simp
      · rw [if_neg hb, if_neg h, if_neg (by omega)]

theorem Memory.read_writeBytes_outside {m : Memory} {a b : Nat} {vs : List Byte} (h : b < a ∨ a + vs.length ≤ b) :
    Memory.read (Memory.writeBytes m a vs) b = Memory.read m b := by
  rw [Memory.read_writeBytes, if_neg (by omega)]

theorem Memory.read_writeBytes_inside {m : Memory} {a j : Nat} {vs : List Byte} (h : j < vs.length) :
    Memory.read (Memory.writeBytes m a vs) (a + j) = some vs[j] := by
  rw [Memory.read_writeBytes, if_pos (by omega), Nat.add_sub_cancel_left]; simp [h]

theorem Memory.writeBytes_append (m : Memory) (a : Nat) (vs ws : List Byte) :
    Memory.writeBytes m a (vs ++ ws) = Memory.writeBytes (Memory.writeBytes m (a + vs.length) ws) a vs := by
  induction vs generalizing a with
  | nil => rfl
  | cons v vs ih => simp [Memory.writeBytes, ih, Nat.add_assoc, Nat.add_comm 1]

theorem Memory.length_of_readBytes {m : Memory} {a n : Nat} {vs : List Byte} (h : Memory.readBytes m a n = some vs) :
    vs.length = n := by
  induction n generalizing a vs with
  | zero => simp [Memory.readBytes] at h; simp [← h]
  | succ n ih =>
    simp only [Memory.readBytes] at h
    split at h
    · next hv hvs => cases h; simp [ih hvs]
    · cases h

theorem Memory.read_of_readBytes {m : Memory} {a n : Nat} {vs : List Byte} (h : Memory.readBytes m a n = some vs) {j : Nat}
    (hj : j < n) : Memory.read m (a + j) = vs[j]? := by
  induction n generalizing a vs j with
  | zero => omega
  | succ n ih =>
    simp only [Memory.readBytes] at h
    split at h
    · next v vs' hv hvs =>
      cases h
      cases j with
      | zero => simpa using hv
      | succ j => have := ih hvs (j := j) (by omega); simpa [Nat.add_assoc, Nat.add_comm 1] using this
    · cases h

theorem Memory.readBytes_of_reads {m : Memory} {a n : Nat} {vs : List Byte} (hl : vs.length = n)
    (h : ∀ j, j < n → Memory.read m (a + j) = vs[j]?) : Memory.readBytes m a n = some vs := by
  induction n generalizing a vs with
  | zero => simp only [Memory.readBytes]; rw [List.length_eq_zero_iff.mp hl]
  | succ n ih =>
    obtain ⟨v, vs, rfl⟩ := List.exists_cons_of_length_eq_add_one hl
    have h0 : Memory.read m a = some v := by simpa using h 0 (by omega)
    have h1 : Memory.readBytes m (a + 1) n = some vs :=
      ih (by simpa using hl) fun j hj => by simpa [Nat.add_assoc, Nat.add_comm 1] using h (j + 1) (by omega)
    simp [Memory.readBytes, h0, h1]

/-- Reads that are all defined give a list of bytes. -/
theorem Memory.exists_readBytes {m : Memory} {a n : Nat} (h : ∀ j, j < n → (Memory.read m (a + j)).isSome) :
    ∃ vs, Memory.readBytes m a n = some vs := by
  induction n generalizing a with
  | zero => exact ⟨[], rfl⟩
  | succ n ih =>
    obtain ⟨vs, hvs⟩ := ih (a := a + 1) fun j hj => by simpa [Nat.add_assoc, Nat.add_comm 1] using h (j + 1) (by omega)
    obtain ⟨v, hv⟩ := Option.isSome_iff_exists.mp (by simpa using h 0 (by omega))
    exact ⟨v :: vs, by simp [Memory.readBytes, hv, hvs]⟩

/-- Memories that read alike over a range have the same bytes there. -/
theorem Memory.readBytes_congr {m m' : Memory} {a n : Nat} (h : ∀ j, j < n → Memory.read m' (a + j) = Memory.read m (a + j)) :
    Memory.readBytes m' a n = Memory.readBytes m a n := by
  induction n generalizing a with
  | zero => rfl
  | succ n ih =>
    have h0 := h 0 (by omega)
    have h1 := ih (a := a + 1) fun j hj => by simpa [Nat.add_assoc, Nat.add_comm 1] using h (j + 1) (by omega)
    simp only [Memory.readBytes, h1, show Memory.read m' a = Memory.read m a from h0]

/-! ### The canonical form -/

theorem Memory.mem_write {m : Memory} {a : Nat} {v : Byte} {c : Host.Cell} (h : c ∈ Memory.write m a v) :
    c = (a, v) ∨ c ∈ m := by
  induction m with
  | nil => simpa [Memory.write] using h
  | cons d m ih =>
    simp only [Memory.write] at h
    split at h
    · simpa using h
    · split at h
      · rcases List.mem_cons.mp h with h | h
        · exact .inl h
        · exact .inr (List.mem_cons_of_mem _ h)
      · rcases List.mem_cons.mp h with h | h
        · exact .inr (h ▸ List.mem_cons_self)
        · exact (ih h).imp_right (List.mem_cons_of_mem _)

theorem Memory.write_wf {m : Memory} (a : Nat) (v : Byte) (h : Memory.wf m) : Memory.wf (Memory.write m a v) := by
  induction m with
  | nil => simp [Memory.write, Memory.wf]
  | cons c m ih =>
    obtain ⟨hc, hm⟩ := List.pairwise_cons.mp h
    simp only [Memory.write]
    split
    · next hlt =>
      refine List.pairwise_cons.mpr ⟨fun d hd => ?_, h⟩
      rcases List.mem_cons.mp hd with rfl | hd
      · exact hlt
      · exact Nat.lt_trans hlt (hc d hd)
    · split
      · next heq => exact List.pairwise_cons.mpr ⟨fun d hd => heq ▸ hc d hd, hm⟩
      · refine List.pairwise_cons.mpr ⟨fun d hd => ?_, ih hm⟩
        rcases Memory.mem_write hd with rfl | hd
        · show c.1 < a; omega
        · exact hc d hd

theorem Memory.writeBytes_wf {m : Memory} (a : Nat) (vs : List Byte) (h : Memory.wf m) :
    Memory.wf (Memory.writeBytes m a vs) := by
  induction vs generalizing a with
  | nil => exact h
  | cons v vs ih => exact Memory.write_wf a v (ih (a + 1))

theorem Memory.copy_wf {m m' : Memory} {dst src n : Nat} (h : Memory.wf m) (hc : Memory.copy m dst src n = some m') :
    Memory.wf m' := by
  unfold Memory.copy at hc
  split at hc
  · cases hc; exact Memory.writeBytes_wf _ _ h
  · cases hc

theorem Memory.read_eq_none_of_lt {m : Memory} {a : Nat} (h : ∀ c ∈ m, a < c.1) : Memory.read m a = none := by
  induction m with
  | nil => rfl
  | cons c m ih =>
    have hc := h c List.mem_cons_self
    rw [Memory.read, if_neg (by omega), ih fun d hd => h d (List.mem_cons_of_mem _ hd)]

theorem Memory.read_eq_none_of_gt {m : Memory} {a : Nat} (h : ∀ c ∈ m, c.1 < a) : Memory.read m a = none := by
  induction m with
  | nil => rfl
  | cons c m ih =>
    have hc := h c List.mem_cons_self
    rw [Memory.read, if_neg (by omega), ih fun d hd => h d (List.mem_cons_of_mem _ hd)]

/-- Equal memories are equal data: the canonical form is unique. -/
theorem Memory.ext_of_wf {m m' : Memory} (h : Memory.wf m) (h' : Memory.wf m')
    (hr : ∀ a, Memory.read m a = Memory.read m' a) : m = m' := by
  induction m generalizing m' with
  | nil =>
    cases m' with
    | nil => rfl
    | cons d m' => have := hr d.1; simp [Memory.read] at this
  | cons c m ih =>
    cases m' with
    | nil => have := hr c.1; simp [Memory.read] at this
    | cons d m' =>
      obtain ⟨hc, hm⟩ := List.pairwise_cons.mp h
      obtain ⟨hd, hm'⟩ := List.pairwise_cons.mp h'
      have hkey : c.1 = d.1 := by
        rcases Nat.lt_trichotomy c.1 d.1 with hlt | heq | hgt
        · have := hr c.1
          rw [Memory.read_eq_none_of_lt (m := d :: m')] at this
          · simp [Memory.read] at this
          · intro e he
            rcases List.mem_cons.mp he with rfl | he
            · exact hlt
            · exact Nat.lt_trans hlt (hd e he)
        · exact heq
        · have := hr d.1
          rw [Memory.read_eq_none_of_lt (m := c :: m)] at this
          · simp [Memory.read] at this
          · intro e he
            rcases List.mem_cons.mp he with rfl | he
            · exact hgt
            · exact Nat.lt_trans hgt (hc e he)
      have hval : c.2 = d.2 := by have := hr c.1; simpa [Memory.read, hkey] using this
      have htail : m = m' := by
        refine ih hm hm' fun a => ?_
        have ha := hr a
        simp only [Memory.read] at ha
        by_cases hac : a = c.1
        · rw [Memory.read_eq_none_of_lt fun e he => hac ▸ hc e he,
            Memory.read_eq_none_of_lt fun e he => by rw [hac, hkey]; exact hd e he]
        · rwa [if_neg hac, if_neg (hkey ▸ hac)] at ha
      rw [htail, show c = d from Prod.ext hkey hval]

end Sys2Proof.Machine
end

