-- ==== Sys2Proof/Laws/State.lean ====
section
/-! SUPPORT. One lemma per field per update of State, so that no proof unfolds a record update. -/

namespace Sys2Proof.Machine

/-! ### setStatus -/

@[simp] theorem State.setStatus_cfg (s : State) (c : Status) : (s.setStatus c).cfg = s.cfg := rfl
@[simp] theorem State.setStatus_valid (s : State) (c : Status) : (s.setStatus c).valid = s.valid := rfl
@[simp] theorem State.setStatus_n (s : State) (c : Status) : (s.setStatus c).n = s.n := rfl
@[simp] theorem State.setStatus_frameSize (s : State) (c : Status) : (s.setStatus c).frameSize = s.frameSize := rfl
@[simp] theorem State.setStatus_active (s : State) (c : Status) : (s.setStatus c).active = s.active := rfl
@[simp] theorem State.setStatus_begun (s : State) (c : Status) : (s.setStatus c).begun = s.begun := rfl
@[simp] theorem State.setStatus_status (s : State) (c : Status) : (s.setStatus c).status = statusCode c := rfl
@[simp] theorem State.setStatus_result (s : State) (c : Status) : (s.setStatus c).result = s.result := rfl
@[simp] theorem State.setStatus_ram (s : State) (c : Status) : (s.setStatus c).ram = s.ram := rfl
@[simp] theorem State.setStatus_tx (s : State) (c : Status) : (s.setStatus c).tx = s.tx := rfl
@[simp] theorem State.setStatus_events (s : State) (c : Status) : (s.setStatus c).events = s.events := rfl
@[simp] theorem State.setStatus_faultBits (s : State) (c : Status) : (s.setStatus c).faultBits = s.faultBits := rfl
@[simp] theorem State.setStatus_program (s : State) (c : Status) : (s.setStatus c).program = s.program := rfl
@[simp] theorem State.setStatus_pc (s : State) (c : Status) : (s.setStatus c).pc = s.pc := rfl
@[simp] theorem State.setStatus_schedule (s : State) (c : Status) : (s.setStatus c).schedule = s.schedule := rfl
@[simp] theorem State.setStatus_draws (s : State) (c : Status) : (s.setStatus c).draws = s.draws := rfl
@[simp] theorem State.setStatus_drawCount (s : State) (c : Status) : (s.setStatus c).drawCount = s.drawCount := rfl

/-! ### setResult -/

@[simp] theorem State.setResult_cfg (s : State) (v : Word32) : (s.setResult v).cfg = s.cfg := rfl
@[simp] theorem State.setResult_valid (s : State) (v : Word32) : (s.setResult v).valid = s.valid := rfl
@[simp] theorem State.setResult_n (s : State) (v : Word32) : (s.setResult v).n = s.n := rfl
@[simp] theorem State.setResult_frameSize (s : State) (v : Word32) : (s.setResult v).frameSize = s.frameSize := rfl
@[simp] theorem State.setResult_active (s : State) (v : Word32) : (s.setResult v).active = s.active := rfl
@[simp] theorem State.setResult_begun (s : State) (v : Word32) : (s.setResult v).begun = s.begun := rfl
@[simp] theorem State.setResult_status (s : State) (v : Word32) : (s.setResult v).status = s.status := rfl
@[simp] theorem State.setResult_result (s : State) (v : Word32) : (s.setResult v).result = v := rfl
@[simp] theorem State.setResult_ram (s : State) (v : Word32) : (s.setResult v).ram = s.ram := rfl
@[simp] theorem State.setResult_tx (s : State) (v : Word32) : (s.setResult v).tx = s.tx := rfl
@[simp] theorem State.setResult_events (s : State) (v : Word32) : (s.setResult v).events = s.events := rfl
@[simp] theorem State.setResult_faultBits (s : State) (v : Word32) : (s.setResult v).faultBits = s.faultBits := rfl
@[simp] theorem State.setResult_program (s : State) (v : Word32) : (s.setResult v).program = s.program := rfl
@[simp] theorem State.setResult_pc (s : State) (v : Word32) : (s.setResult v).pc = s.pc := rfl
@[simp] theorem State.setResult_schedule (s : State) (v : Word32) : (s.setResult v).schedule = s.schedule := rfl
@[simp] theorem State.setResult_draws (s : State) (v : Word32) : (s.setResult v).draws = s.draws := rfl
@[simp] theorem State.setResult_drawCount (s : State) (v : Word32) : (s.setResult v).drawCount = s.drawCount := rfl

/-! ### advance -/

@[simp] theorem State.advance_cfg (s : State) : (s.advance).cfg = s.cfg := rfl
@[simp] theorem State.advance_valid (s : State) : (s.advance).valid = s.valid := rfl
@[simp] theorem State.advance_n (s : State) : (s.advance).n = s.n := rfl
@[simp] theorem State.advance_frameSize (s : State) : (s.advance).frameSize = s.frameSize := rfl
@[simp] theorem State.advance_active (s : State) : (s.advance).active = s.active := rfl
@[simp] theorem State.advance_begun (s : State) : (s.advance).begun = s.begun := rfl
@[simp] theorem State.advance_status (s : State) : (s.advance).status = s.status := rfl
@[simp] theorem State.advance_result (s : State) : (s.advance).result = s.result := rfl
@[simp] theorem State.advance_ram (s : State) : (s.advance).ram = s.ram := rfl
@[simp] theorem State.advance_tx (s : State) : (s.advance).tx = s.tx := rfl
@[simp] theorem State.advance_events (s : State) : (s.advance).events = s.events := rfl
@[simp] theorem State.advance_faultBits (s : State) : (s.advance).faultBits = s.faultBits := rfl
@[simp] theorem State.advance_program (s : State) : (s.advance).program = s.program := rfl
@[simp] theorem State.advance_pc (s : State) : (s.advance).pc = s.pc + 1 := rfl
@[simp] theorem State.advance_schedule (s : State) : (s.advance).schedule = s.schedule := rfl
@[simp] theorem State.advance_draws (s : State) : (s.advance).draws = s.draws := rfl
@[simp] theorem State.advance_drawCount (s : State) : (s.advance).drawCount = s.drawCount := rfl

/-! ### setRam -/

@[simp] theorem State.setRam_cfg (s : State) (m : Memory) : (s.setRam m).cfg = s.cfg := rfl
@[simp] theorem State.setRam_valid (s : State) (m : Memory) : (s.setRam m).valid = s.valid := rfl
@[simp] theorem State.setRam_n (s : State) (m : Memory) : (s.setRam m).n = s.n := rfl
@[simp] theorem State.setRam_frameSize (s : State) (m : Memory) : (s.setRam m).frameSize = s.frameSize := rfl
@[simp] theorem State.setRam_active (s : State) (m : Memory) : (s.setRam m).active = s.active := rfl
@[simp] theorem State.setRam_begun (s : State) (m : Memory) : (s.setRam m).begun = s.begun := rfl
@[simp] theorem State.setRam_status (s : State) (m : Memory) : (s.setRam m).status = s.status := rfl
@[simp] theorem State.setRam_result (s : State) (m : Memory) : (s.setRam m).result = s.result := rfl
@[simp] theorem State.setRam_ram (s : State) (m : Memory) : (s.setRam m).ram = m := rfl
@[simp] theorem State.setRam_tx (s : State) (m : Memory) : (s.setRam m).tx = s.tx := rfl
@[simp] theorem State.setRam_events (s : State) (m : Memory) : (s.setRam m).events = s.events := rfl
@[simp] theorem State.setRam_faultBits (s : State) (m : Memory) : (s.setRam m).faultBits = s.faultBits := rfl
@[simp] theorem State.setRam_program (s : State) (m : Memory) : (s.setRam m).program = s.program := rfl
@[simp] theorem State.setRam_pc (s : State) (m : Memory) : (s.setRam m).pc = s.pc := rfl
@[simp] theorem State.setRam_schedule (s : State) (m : Memory) : (s.setRam m).schedule = s.schedule := rfl
@[simp] theorem State.setRam_draws (s : State) (m : Memory) : (s.setRam m).draws = s.draws := rfl
@[simp] theorem State.setRam_drawCount (s : State) (m : Memory) : (s.setRam m).drawCount = s.drawCount := rfl

/-! ### setActive -/

@[simp] theorem State.setActive_cfg (s : State) (h : Half) : (s.setActive h).cfg = s.cfg := rfl
@[simp] theorem State.setActive_valid (s : State) (h : Half) : (s.setActive h).valid = s.valid := rfl
@[simp] theorem State.setActive_n (s : State) (h : Half) : (s.setActive h).n = s.n := rfl
@[simp] theorem State.setActive_frameSize (s : State) (h : Half) : (s.setActive h).frameSize = s.frameSize := rfl
@[simp] theorem State.setActive_active (s : State) (h : Half) : (s.setActive h).active = h := rfl
@[simp] theorem State.setActive_begun (s : State) (h : Half) : (s.setActive h).begun = s.begun := rfl
@[simp] theorem State.setActive_status (s : State) (h : Half) : (s.setActive h).status = s.status := rfl
@[simp] theorem State.setActive_result (s : State) (h : Half) : (s.setActive h).result = s.result := rfl
@[simp] theorem State.setActive_ram (s : State) (h : Half) : (s.setActive h).ram = s.ram := rfl
@[simp] theorem State.setActive_tx (s : State) (h : Half) : (s.setActive h).tx = s.tx := rfl
@[simp] theorem State.setActive_events (s : State) (h : Half) : (s.setActive h).events = s.events := rfl
@[simp] theorem State.setActive_faultBits (s : State) (h : Half) : (s.setActive h).faultBits = s.faultBits := rfl
@[simp] theorem State.setActive_program (s : State) (h : Half) : (s.setActive h).program = s.program := rfl
@[simp] theorem State.setActive_pc (s : State) (h : Half) : (s.setActive h).pc = s.pc := rfl
@[simp] theorem State.setActive_schedule (s : State) (h : Half) : (s.setActive h).schedule = s.schedule := rfl
@[simp] theorem State.setActive_draws (s : State) (h : Half) : (s.setActive h).draws = s.draws := rfl
@[simp] theorem State.setActive_drawCount (s : State) (h : Half) : (s.setActive h).drawCount = s.drawCount := rfl

/-! ### setBegun -/

@[simp] theorem State.setBegun_cfg (s : State) (v : Bool) : (s.setBegun v).cfg = s.cfg := rfl
@[simp] theorem State.setBegun_valid (s : State) (v : Bool) : (s.setBegun v).valid = s.valid := rfl
@[simp] theorem State.setBegun_n (s : State) (v : Bool) : (s.setBegun v).n = s.n := rfl
@[simp] theorem State.setBegun_frameSize (s : State) (v : Bool) : (s.setBegun v).frameSize = s.frameSize := rfl
@[simp] theorem State.setBegun_active (s : State) (v : Bool) : (s.setBegun v).active = s.active := rfl
@[simp] theorem State.setBegun_begun (s : State) (v : Bool) : (s.setBegun v).begun = v := rfl
@[simp] theorem State.setBegun_status (s : State) (v : Bool) : (s.setBegun v).status = s.status := rfl
@[simp] theorem State.setBegun_result (s : State) (v : Bool) : (s.setBegun v).result = s.result := rfl
@[simp] theorem State.setBegun_ram (s : State) (v : Bool) : (s.setBegun v).ram = s.ram := rfl
@[simp] theorem State.setBegun_tx (s : State) (v : Bool) : (s.setBegun v).tx = s.tx := rfl
@[simp] theorem State.setBegun_events (s : State) (v : Bool) : (s.setBegun v).events = s.events := rfl
@[simp] theorem State.setBegun_faultBits (s : State) (v : Bool) : (s.setBegun v).faultBits = s.faultBits := rfl
@[simp] theorem State.setBegun_program (s : State) (v : Bool) : (s.setBegun v).program = s.program := rfl
@[simp] theorem State.setBegun_pc (s : State) (v : Bool) : (s.setBegun v).pc = s.pc := rfl
@[simp] theorem State.setBegun_schedule (s : State) (v : Bool) : (s.setBegun v).schedule = s.schedule := rfl
@[simp] theorem State.setBegun_draws (s : State) (v : Bool) : (s.setBegun v).draws = s.draws := rfl
@[simp] theorem State.setBegun_drawCount (s : State) (v : Bool) : (s.setBegun v).drawCount = s.drawCount := rfl

/-! ### setTx -/

@[simp] theorem State.setTx_cfg (s : State) (x : Tx) : (s.setTx x).cfg = s.cfg := rfl
@[simp] theorem State.setTx_valid (s : State) (x : Tx) : (s.setTx x).valid = s.valid := rfl
@[simp] theorem State.setTx_n (s : State) (x : Tx) : (s.setTx x).n = s.n := rfl
@[simp] theorem State.setTx_frameSize (s : State) (x : Tx) : (s.setTx x).frameSize = s.frameSize := rfl
@[simp] theorem State.setTx_active (s : State) (x : Tx) : (s.setTx x).active = s.active := rfl
@[simp] theorem State.setTx_begun (s : State) (x : Tx) : (s.setTx x).begun = s.begun := rfl
@[simp] theorem State.setTx_status (s : State) (x : Tx) : (s.setTx x).status = s.status := rfl
@[simp] theorem State.setTx_result (s : State) (x : Tx) : (s.setTx x).result = s.result := rfl
@[simp] theorem State.setTx_ram (s : State) (x : Tx) : (s.setTx x).ram = s.ram := rfl
@[simp] theorem State.setTx_tx (s : State) (x : Tx) : (s.setTx x).tx = x := rfl
@[simp] theorem State.setTx_events (s : State) (x : Tx) : (s.setTx x).events = s.events := rfl
@[simp] theorem State.setTx_faultBits (s : State) (x : Tx) : (s.setTx x).faultBits = s.faultBits := rfl
@[simp] theorem State.setTx_program (s : State) (x : Tx) : (s.setTx x).program = s.program := rfl
@[simp] theorem State.setTx_pc (s : State) (x : Tx) : (s.setTx x).pc = s.pc := rfl
@[simp] theorem State.setTx_schedule (s : State) (x : Tx) : (s.setTx x).schedule = s.schedule := rfl
@[simp] theorem State.setTx_draws (s : State) (x : Tx) : (s.setTx x).draws = s.draws := rfl
@[simp] theorem State.setTx_drawCount (s : State) (x : Tx) : (s.setTx x).drawCount = s.drawCount := rfl

/-! ### emit -/

@[simp] theorem State.emit_cfg (s : State) (e : Event) : (s.emit e).cfg = s.cfg := rfl
@[simp] theorem State.emit_valid (s : State) (e : Event) : (s.emit e).valid = s.valid := rfl
@[simp] theorem State.emit_n (s : State) (e : Event) : (s.emit e).n = s.n := rfl
@[simp] theorem State.emit_frameSize (s : State) (e : Event) : (s.emit e).frameSize = s.frameSize := rfl
@[simp] theorem State.emit_active (s : State) (e : Event) : (s.emit e).active = s.active := rfl
@[simp] theorem State.emit_begun (s : State) (e : Event) : (s.emit e).begun = s.begun := rfl
@[simp] theorem State.emit_status (s : State) (e : Event) : (s.emit e).status = s.status := rfl
@[simp] theorem State.emit_result (s : State) (e : Event) : (s.emit e).result = s.result := rfl
@[simp] theorem State.emit_ram (s : State) (e : Event) : (s.emit e).ram = s.ram := rfl
@[simp] theorem State.emit_tx (s : State) (e : Event) : (s.emit e).tx = s.tx := rfl
@[simp] theorem State.emit_events (s : State) (e : Event) : (s.emit e).events = s.events ++ [e] := rfl
@[simp] theorem State.emit_faultBits (s : State) (e : Event) : (s.emit e).faultBits = s.faultBits := rfl
@[simp] theorem State.emit_program (s : State) (e : Event) : (s.emit e).program = s.program := rfl
@[simp] theorem State.emit_pc (s : State) (e : Event) : (s.emit e).pc = s.pc := rfl
@[simp] theorem State.emit_schedule (s : State) (e : Event) : (s.emit e).schedule = s.schedule := rfl
@[simp] theorem State.emit_draws (s : State) (e : Event) : (s.emit e).draws = s.draws := rfl
@[simp] theorem State.emit_drawCount (s : State) (e : Event) : (s.emit e).drawCount = s.drawCount := rfl

/-! ### recordViolation -/

@[simp] theorem State.recordViolation_cfg (s : State) (op : ContractOp) : (s.recordViolation op).cfg = s.cfg := rfl
@[simp] theorem State.recordViolation_valid (s : State) (op : ContractOp) : (s.recordViolation op).valid = s.valid := rfl
@[simp] theorem State.recordViolation_n (s : State) (op : ContractOp) : (s.recordViolation op).n = s.n := rfl
@[simp] theorem State.recordViolation_frameSize (s : State) (op : ContractOp) : (s.recordViolation op).frameSize = s.frameSize := rfl
@[simp] theorem State.recordViolation_active (s : State) (op : ContractOp) : (s.recordViolation op).active = s.active := rfl
@[simp] theorem State.recordViolation_begun (s : State) (op : ContractOp) : (s.recordViolation op).begun = s.begun := rfl
@[simp] theorem State.recordViolation_status (s : State) (op : ContractOp) : (s.recordViolation op).status = s.status := rfl
@[simp] theorem State.recordViolation_result (s : State) (op : ContractOp) : (s.recordViolation op).result = s.result := rfl
@[simp] theorem State.recordViolation_ram (s : State) (op : ContractOp) : (s.recordViolation op).ram = s.ram := rfl
@[simp] theorem State.recordViolation_tx (s : State) (op : ContractOp) : (s.recordViolation op).tx = s.tx := rfl
@[simp] theorem State.recordViolation_events (s : State) (op : ContractOp) : (s.recordViolation op).events = s.events := rfl
@[simp] theorem State.recordViolation_faultBits (s : State) (op : ContractOp) : (s.recordViolation op).faultBits = s.faultBits.add op := rfl
@[simp] theorem State.recordViolation_program (s : State) (op : ContractOp) : (s.recordViolation op).program = s.program := rfl
@[simp] theorem State.recordViolation_pc (s : State) (op : ContractOp) : (s.recordViolation op).pc = s.pc := rfl
@[simp] theorem State.recordViolation_schedule (s : State) (op : ContractOp) : (s.recordViolation op).schedule = s.schedule := rfl
@[simp] theorem State.recordViolation_draws (s : State) (op : ContractOp) : (s.recordViolation op).draws = s.draws := rfl
@[simp] theorem State.recordViolation_drawCount (s : State) (op : ContractOp) : (s.recordViolation op).drawCount = s.drawCount := rfl

/-! ### release -/

@[simp] theorem State.release_cfg (s : State) : (s.release).cfg = s.cfg := rfl
@[simp] theorem State.release_valid (s : State) : (s.release).valid = false := rfl
@[simp] theorem State.release_n (s : State) : (s.release).n = 0 := rfl
@[simp] theorem State.release_frameSize (s : State) : (s.release).frameSize = 0 := rfl
@[simp] theorem State.release_active (s : State) : (s.release).active = .a := rfl
@[simp] theorem State.release_begun (s : State) : (s.release).begun = s.begun := rfl
@[simp] theorem State.release_status (s : State) : (s.release).status = s.status := rfl
@[simp] theorem State.release_result (s : State) : (s.release).result = s.result := rfl
@[simp] theorem State.release_ram (s : State) : (s.release).ram = [] := rfl
@[simp] theorem State.release_tx (s : State) : (s.release).tx = s.tx := rfl
@[simp] theorem State.release_events (s : State) : (s.release).events = s.events := rfl
@[simp] theorem State.release_faultBits (s : State) : (s.release).faultBits = s.faultBits := rfl
@[simp] theorem State.release_program (s : State) : (s.release).program = s.program := rfl
@[simp] theorem State.release_pc (s : State) : (s.release).pc = s.pc := rfl
@[simp] theorem State.release_schedule (s : State) : (s.release).schedule = s.schedule := rfl
@[simp] theorem State.release_draws (s : State) : (s.release).draws = s.draws := rfl
@[simp] theorem State.release_drawCount (s : State) : (s.release).drawCount = s.drawCount := rfl

/-! ### allocate -/

@[simp] theorem State.allocate_cfg (s : State) (k : Count) : (s.allocate k).cfg = s.cfg := rfl
@[simp] theorem State.allocate_valid (s : State) (k : Count) : (s.allocate k).valid = true := rfl
@[simp] theorem State.allocate_n (s : State) (k : Count) : (s.allocate k).n = k := rfl
@[simp] theorem State.allocate_frameSize (s : State) (k : Count) : (s.allocate k).frameSize = BitVec.ofNat 20 (frameBytes s.cfg.variant k.toNat) := rfl
@[simp] theorem State.allocate_active (s : State) (k : Count) : (s.allocate k).active = .a := rfl
@[simp] theorem State.allocate_begun (s : State) (k : Count) : (s.allocate k).begun = s.begun := rfl
@[simp] theorem State.allocate_status (s : State) (k : Count) : (s.allocate k).status = s.status := rfl
@[simp] theorem State.allocate_result (s : State) (k : Count) : (s.allocate k).result = s.result := rfl
@[simp] theorem State.allocate_ram (s : State) (k : Count) : (s.allocate k).ram = Memory.writeBytes (Memory.writeBytes [] (frameBytes s.cfg.variant k.toNat)
      (clearedFrame s.cfg.variant k.toNat)) 0 (clearedFrame s.cfg.variant k.toNat) := rfl
@[simp] theorem State.allocate_tx (s : State) (k : Count) : (s.allocate k).tx = s.tx := rfl
@[simp] theorem State.allocate_events (s : State) (k : Count) : (s.allocate k).events = s.events := rfl
@[simp] theorem State.allocate_faultBits (s : State) (k : Count) : (s.allocate k).faultBits = s.faultBits := rfl
@[simp] theorem State.allocate_program (s : State) (k : Count) : (s.allocate k).program = s.program := rfl
@[simp] theorem State.allocate_pc (s : State) (k : Count) : (s.allocate k).pc = s.pc := rfl
@[simp] theorem State.allocate_schedule (s : State) (k : Count) : (s.allocate k).schedule = s.schedule := rfl
@[simp] theorem State.allocate_draws (s : State) (k : Count) : (s.allocate k).draws = s.draws := rfl
@[simp] theorem State.allocate_drawCount (s : State) (k : Count) : (s.allocate k).drawCount = s.drawCount := rfl

/-! ### writePixel -/

@[simp] theorem State.writePixel_cfg (s : State) (i : Nat) (r g b w : Byte) : (s.writePixel i r g b w).cfg = s.cfg := rfl
@[simp] theorem State.writePixel_valid (s : State) (i : Nat) (r g b w : Byte) : (s.writePixel i r g b w).valid = s.valid := rfl
@[simp] theorem State.writePixel_n (s : State) (i : Nat) (r g b w : Byte) : (s.writePixel i r g b w).n = s.n := rfl
@[simp] theorem State.writePixel_frameSize (s : State) (i : Nat) (r g b w : Byte) : (s.writePixel i r g b w).frameSize = s.frameSize := rfl
@[simp] theorem State.writePixel_active (s : State) (i : Nat) (r g b w : Byte) : (s.writePixel i r g b w).active = s.active := rfl
@[simp] theorem State.writePixel_begun (s : State) (i : Nat) (r g b w : Byte) : (s.writePixel i r g b w).begun = s.begun := rfl
@[simp] theorem State.writePixel_status (s : State) (i : Nat) (r g b w : Byte) : (s.writePixel i r g b w).status = s.status := rfl
@[simp] theorem State.writePixel_result (s : State) (i : Nat) (r g b w : Byte) : (s.writePixel i r g b w).result = s.result := rfl
@[simp] theorem State.writePixel_ram (s : State) (i : Nat) (r g b w : Byte) : (s.writePixel i r g b w).ram = Memory.writeBytes s.ram (s.slot s.active i) (slotBytes s.cfg.variant r g b w) := rfl
@[simp] theorem State.writePixel_tx (s : State) (i : Nat) (r g b w : Byte) : (s.writePixel i r g b w).tx = s.tx := rfl
@[simp] theorem State.writePixel_events (s : State) (i : Nat) (r g b w : Byte) : (s.writePixel i r g b w).events = s.events := rfl
@[simp] theorem State.writePixel_faultBits (s : State) (i : Nat) (r g b w : Byte) : (s.writePixel i r g b w).faultBits = s.faultBits := rfl
@[simp] theorem State.writePixel_program (s : State) (i : Nat) (r g b w : Byte) : (s.writePixel i r g b w).program = s.program := rfl
@[simp] theorem State.writePixel_pc (s : State) (i : Nat) (r g b w : Byte) : (s.writePixel i r g b w).pc = s.pc := rfl
@[simp] theorem State.writePixel_schedule (s : State) (i : Nat) (r g b w : Byte) : (s.writePixel i r g b w).schedule = s.schedule := rfl
@[simp] theorem State.writePixel_draws (s : State) (i : Nat) (r g b w : Byte) : (s.writePixel i r g b w).draws = s.draws := rfl
@[simp] theorem State.writePixel_drawCount (s : State) (i : Nat) (r g b w : Byte) : (s.writePixel i r g b w).drawCount = s.drawCount := rfl

/-! ### dropDraw -/

@[simp] theorem State.dropDraw_cfg (s : State) : s.dropDraw.cfg = s.cfg := by
  unfold State.dropDraw; split <;> rfl
@[simp] theorem State.dropDraw_valid (s : State) : s.dropDraw.valid = s.valid := by
  unfold State.dropDraw; split <;> rfl
@[simp] theorem State.dropDraw_n (s : State) : s.dropDraw.n = s.n := by
  unfold State.dropDraw; split <;> rfl
@[simp] theorem State.dropDraw_frameSize (s : State) : s.dropDraw.frameSize = s.frameSize := by
  unfold State.dropDraw; split <;> rfl
@[simp] theorem State.dropDraw_active (s : State) : s.dropDraw.active = s.active := by
  unfold State.dropDraw; split <;> rfl
@[simp] theorem State.dropDraw_begun (s : State) : s.dropDraw.begun = s.begun := by
  unfold State.dropDraw; split <;> rfl
@[simp] theorem State.dropDraw_status (s : State) : s.dropDraw.status = s.status := by
  unfold State.dropDraw; split <;> rfl
@[simp] theorem State.dropDraw_result (s : State) : s.dropDraw.result = s.result := by
  unfold State.dropDraw; split <;> rfl
@[simp] theorem State.dropDraw_ram (s : State) : s.dropDraw.ram = s.ram := by
  unfold State.dropDraw; split <;> rfl
@[simp] theorem State.dropDraw_tx (s : State) : s.dropDraw.tx = s.tx := by
  unfold State.dropDraw; split <;> rfl
@[simp] theorem State.dropDraw_events (s : State) : s.dropDraw.events = s.events := by
  unfold State.dropDraw; split <;> rfl
@[simp] theorem State.dropDraw_faultBits (s : State) : s.dropDraw.faultBits = s.faultBits := by
  unfold State.dropDraw; split <;> rfl
@[simp] theorem State.dropDraw_program (s : State) : s.dropDraw.program = s.program := by
  unfold State.dropDraw; split <;> rfl
@[simp] theorem State.dropDraw_pc (s : State) : s.dropDraw.pc = s.pc := by
  unfold State.dropDraw; split <;> rfl
@[simp] theorem State.dropDraw_schedule (s : State) : s.dropDraw.schedule = s.schedule := by
  unfold State.dropDraw; split <;> rfl

end Sys2Proof.Machine
end

