-- ==== Sys2Proof/Laws/Ops.lean ====
section
/-! SUPPORT. What each shared operation can do, said once: completing, the transport's step, the timing contract's check. -/

namespace Sys2Proof.Machine

/-- A completed command writes STATUS and moves the pc on, over the state its effect left. -/
theorem finish_next {c : Status} {s t : State} : finish c s = .next t ↔ t = { s with status := statusCode c, pc := s.pc + 1 } := by
  simp only [finish, Host.Outcome.next.injEq]
  exact ⟨fun h => h ▸ rfl, fun h => h ▸ rfl⟩

theorem finish_eq (c : Status) (s : State) : finish c s = .next { s with status := statusCode c, pc := s.pc + 1 } := rfl

theorem complete_eq (s : State) : complete s = .next { s with status := 0, pc := s.pc + 1 } := rfl

theorem raise_eq (c : Status) (s : State) : raise c s = .next { s with status := statusCode c, pc := s.pc + 1 } := rfl

theorem runCommand_of_ok {w : CommandWord} {i : Instr} (h : decode w = .ok i) (s : State) : runCommand w s = exec i s := by
  simp [runCommand, h]

theorem runCommand_of_illegal {w : CommandWord} {r : Reject} (h : decode w = .illegal r) (s : State) :
    runCommand w s = .next { s with status := 3, pc := s.pc + 1 } := by
  simp only [runCommand, h]; rfl

/-! ### The transport -/

/-- Dropping a draw changes nothing but the draws and their counter. -/
theorem State.dropDraw_eq (s : State) : s.dropDraw = { s with draws := s.dropDraw.draws, drawCount := s.dropDraw.drawCount } := by
  unfold State.dropDraw; split <;> rfl

theorem State.dropDraw_draws (s : State) : s.dropDraw.draws = s.draws.tail := by
  unfold State.dropDraw; split <;> next h => rw [h]; try rfl

theorem State.dropDraw_drawCount (s : State) : s.dropDraw.drawCount = s.drawCount + if s.draws = [] then 1 else 0 := by
  unfold State.dropDraw; split <;> next h => simp [h]

theorem transportStep_of_idle {s : State} (h : s.tx = .idle) : transportStep s = .refused .noStep := by
  simp [transportStep, h]

/-- Everything a transport step that goes on can do: read one byte, or end the transfer. -/
theorem transportStep_next {s t : State} (h : transportStep s = .next t) :
    ∃ x, s.tx = .busy x ∧
      ((x.pos < x.len.toNat ∧ ∃ v, Memory.read s.ram (x.base.toNat + x.pos) = some v ∧
          t = s.setTx (.busy { x with pos := x.pos + 1, bytes := x.bytes ++ [v] })) ∨
       (x.len.toNat ≤ x.pos ∧ t = (s.dropDraw.emit (wireFrameOf x s.nextDraw)).setTx .idle)) := by
  unfold transportStep at h
  split at h
  · cases h
  · next x hx =>
    refine ⟨x, hx, ?_⟩
    split at h
    · next hp =>
      unfold readStep at h
      split at h
      · next v hv => cases h; exact .inl ⟨hp, v, hv, rfl⟩
      · cases h
    · cases h; exact .inr ⟨by omega, rfl⟩

/-- A transport step leaves every register, RAM, FAULT and the host's program as they are. -/
theorem transportStep_frame {s t : State} (h : transportStep s = .next t) :
    t = { s with tx := t.tx, events := t.events, draws := t.draws, drawCount := t.drawCount } := by
  obtain ⟨x, hx, ⟨-, v, -, rfl⟩ | ⟨-, rfl⟩⟩ := transportStep_next h
  · rfl
  · rw [State.dropDraw_eq]; rfl

/-- A transport step faults only on a byte that holds no value. -/
theorem transportStep_fault {s : State} {f : Fault} (h : transportStep s = .fault f) :
    ∃ x, s.tx = .busy x ∧ x.pos < x.len.toNat ∧ Memory.read s.ram (x.base.toNat + x.pos) = none := by
  unfold transportStep at h
  split at h
  · cases h
  · next x hx =>
    split at h
    · next hp =>
      unfold readStep at h
      split at h
      · cases h
      · next hv => exact ⟨x, hx, hp, hv⟩
    · cases h

theorem transportStep_refused {s : State} {r : Refusal} (h : transportStep s = .refused r) : s.tx = .idle := by
  unfold transportStep at h
  split at h
  · assumption
  · split at h
    · unfold readStep at h; split at h <;> cases h
    · cases h

/-! ### The timing contract -/

theorem contractCheck_of_held {op : ContractOp} {s : State} {k : State → Result} (h : s.Held) :
    contractCheck op s k = transportStep s := by
  obtain ⟨h1, h2⟩ := h
  unfold contractCheck
  split
  · contradiction
  · simp [h2]

theorem contractCheck_of_not_held {op : ContractOp} {s : State} {k : State → Result} (h : ¬ s.Held) :
    contractCheck op s k = k (s.checked op) := by
  unfold contractCheck State.checked
  split
  · next h1 => simp [h1]
  · next x h1 =>
    have hm : s.cfg.contractMode = .fault := by
      cases hm : s.cfg.contractMode
      · exact absurd ⟨by simp [h1], hm⟩ h
      · rfl
    simp [h1, hm]

/-- `checked` changes nothing but FAULT. -/
theorem State.checked_eq (s : State) (op : ContractOp) : s.checked op = { s with faultBits := (s.checked op).faultBits } := by
  unfold State.checked; split <;> rfl

@[simp] theorem State.checked_cfg (s : State) (op : ContractOp) : (s.checked op).cfg = s.cfg := by rw [State.checked_eq]
@[simp] theorem State.checked_valid (s : State) (op : ContractOp) : (s.checked op).valid = s.valid := by rw [State.checked_eq]
@[simp] theorem State.checked_n (s : State) (op : ContractOp) : (s.checked op).n = s.n := by rw [State.checked_eq]
@[simp] theorem State.checked_frameSize (s : State) (op : ContractOp) : (s.checked op).frameSize = s.frameSize := by rw [State.checked_eq]
@[simp] theorem State.checked_active (s : State) (op : ContractOp) : (s.checked op).active = s.active := by rw [State.checked_eq]
@[simp] theorem State.checked_begun (s : State) (op : ContractOp) : (s.checked op).begun = s.begun := by rw [State.checked_eq]
@[simp] theorem State.checked_status (s : State) (op : ContractOp) : (s.checked op).status = s.status := by rw [State.checked_eq]
@[simp] theorem State.checked_result (s : State) (op : ContractOp) : (s.checked op).result = s.result := by rw [State.checked_eq]
@[simp] theorem State.checked_ram (s : State) (op : ContractOp) : (s.checked op).ram = s.ram := by rw [State.checked_eq]
@[simp] theorem State.checked_tx (s : State) (op : ContractOp) : (s.checked op).tx = s.tx := by rw [State.checked_eq]
@[simp] theorem State.checked_events (s : State) (op : ContractOp) : (s.checked op).events = s.events := by rw [State.checked_eq]
@[simp] theorem State.checked_program (s : State) (op : ContractOp) : (s.checked op).program = s.program := by rw [State.checked_eq]
@[simp] theorem State.checked_pc (s : State) (op : ContractOp) : (s.checked op).pc = s.pc := by rw [State.checked_eq]
@[simp] theorem State.checked_schedule (s : State) (op : ContractOp) : (s.checked op).schedule = s.schedule := by rw [State.checked_eq]
@[simp] theorem State.checked_draws (s : State) (op : ContractOp) : (s.checked op).draws = s.draws := by rw [State.checked_eq]
@[simp] theorem State.checked_drawCount (s : State) (op : ContractOp) : (s.checked op).drawCount = s.drawCount := by rw [State.checked_eq]

/-- With no transfer in flight nothing is recorded. -/
theorem State.checked_of_idle {s : State} (h : s.tx = .idle) (op : ContractOp) : s.checked op = s := by
  simp [State.checked, h]

/-! ### The restricted commands, once the contract lets them proceed -/

theorem exec_setlen_of_not_held {s : State} (n : Count) (h : ¬ s.Held) :
    exec (.setlen n) s =
      if 2 * frameBytes s.cfg.variant n.toNat ≤ s.cfg.bufCap.val then complete ((s.checked .setlen).release.allocate n)
      else finish .errAlloc (s.checked .setlen).release := by
  simp only [exec, execSetlen]
  rw [contractCheck_of_not_held h, State.checked_eq s .setlen]

theorem exec_teardown_of_not_held {s : State} (h : ¬ s.Held) :
    exec .teardown s = complete ((s.checked .teardown).release.setBegun false) := by
  simp only [exec, execTeardown]
  rw [contractCheck_of_not_held h]

theorem exec_showFrame_of_not_held {s : State} (c : Bool) (hb : s.begun = true) (hv : s.valid = true) (h : ¬ s.Held) :
    exec (.showFrame c) s = sendFrame c (s.checked .showFrame) := by
  simp only [exec, execShowFrame, hb, hv, Bool.not_true, if_false, Bool.false_eq_true]
  rw [contractCheck_of_not_held h]

theorem exec_of_held {s : State} {i : Instr} {op : ContractOp} (h : s.Held) (hr : restriction i = some op)
    (hs : op = .showFrame → s.begun = true ∧ s.valid = true) : exec i s = transportStep s := by
  cases i <;> simp only [restriction, Option.some.injEq, reduceCtorEq] at hr
  · simp only [exec, execSetlen]; exact contractCheck_of_held h
  · simp only [exec, execTeardown]; exact contractCheck_of_held h
  · obtain ⟨hb, hv⟩ := hs hr.symm
    simp only [exec, execShowFrame, hb, hv, Bool.not_true, if_false, Bool.false_eq_true]
    exact contractCheck_of_held h

/-- Everything a SHOW that goes past its checks can do. -/
theorem sendFrame_next {c : Bool} {s t : State} (h : sendFrame c s = .next t) :
    ∃ m, t = { s with
        active := s.active.other
        tx := .busy { half := s.active, base := BitVec.ofNat 21 (s.base s.active), len := s.frameSize, pos := 0, bytes := [] }
        events := s.events ++ [.transferStart (BitVec.ofNat 21 (s.base s.active)) s.frameSize]
        ram := m, status := 0, pc := s.pc + 1 } ∧
      (c = false ∧ m = s.ram ∨
       c = true ∧ Memory.copy s.ram (s.base s.active.other) (s.base s.active) s.fs = some m) := by
  cases c with
  | false => cases h; exact ⟨s.ram, rfl, .inl ⟨rfl, rfl⟩⟩
  | true =>
    simp only [sendFrame, if_true] at h
    split at h
    · next m hm => cases h; exact ⟨m, rfl, .inr ⟨rfl, hm⟩⟩
    · cases h

end Sys2Proof.Machine
end

