-- ==== Sys2Proof/Laws/Layout.lean ====
section
/-! SUPPORT. The layout of the DoubleBuffer in arithmetic: the bytes of triplets, slots and cleared halves, and where the slots
and the halves lie. -/

namespace Sys2Proof.Machine

theorem channels_cases (k : Variant) : channels k = 3 ∨ channels k = 4 := by cases k <;> simp [channels]

theorem Half.other_other (h : Half) : h.other.other = h := by cases h <;> rfl

theorem Half.other_ne (h : Half) : h.other ≠ h := by cases h <;> decide

theorem Half.eq_or_eq_other (h k : Half) : h = k ∨ h = k.other := by cases h <;> cases k <;> simp [Half.other]

/-! ### Bytes -/

theorem tripletBytes_length (p : Pattern) : (tripletBytes p).length = 3 := rfl

theorem tripletBytes_getElem? (p : Pattern) {j : Nat} (hj : j < 3) :
    (tripletBytes p)[j]? = some (p.extractLsb' (16 - 8 * j) 8) := by
  interval_cases j <;> rfl

theorem slotBytes_length (k : Variant) (r g b w : Byte) : (slotBytes k r g b w).length = 3 * channels k := by
  cases k <;> rfl

theorem slotBytes_getElem? (v : Variant) (r g b w : Byte) {k j : Nat} (hk : k < channels v) (hj : j < 3) :
    (slotBytes v r g b w)[3 * k + j]? = some ((lut (channelAt r g b w k)).extractLsb' (16 - 8 * j) 8) := by
  cases v <;> simp only [channels] at hk <;> interval_cases k <;> interval_cases j <;> rfl

theorem flatten_replicate_triplet_length (m : Nat) (p : Pattern) :
    (List.replicate m (tripletBytes p)).flatten.length = 3 * m := by
  simp [tripletBytes_length, Nat.mul_comm]

theorem flatten_replicate_triplet_getElem? (m : Nat) (p : Pattern) {q j : Nat} (hq : q < m) (hj : j < 3) :
    (List.replicate m (tripletBytes p)).flatten[3 * q + j]? = some (p.extractLsb' (16 - 8 * j) 8) := by
  induction m generalizing q with
  | zero => omega
  | succ m ih =>
    rw [List.replicate_succ, List.flatten_cons]
    cases q with
    | zero =>
      rw [List.getElem?_append_left (by rw [tripletBytes_length]; omega), Nat.mul_zero, Nat.zero_add, tripletBytes_getElem? p hj]
    | succ q =>
      rw [List.getElem?_append_right (by rw [tripletBytes_length]; omega), tripletBytes_length,
        show 3 * (q + 1) + j - 3 = 3 * q + j by omega, ih (by omega)]

theorem clearedSlots_length (k : Variant) (n : Nat) : (clearedSlots k n).length = 3 * (n * channels k) :=
  flatten_replicate_triplet_length _ _

theorem clearedSlots_getElem? (k : Variant) (n : Nat) {q j : Nat} (hq : q < n * channels k) (hj : j < 3) :
    (clearedSlots k n)[3 * q + j]? = some ((lut 0).extractLsb' (16 - 8 * j) 8) :=
  flatten_replicate_triplet_getElem? _ _ hq hj

theorem clearedFrame_length (k : Variant) (n : Nat) : (clearedFrame k n).length = frameBytes k n := by
  simp [clearedFrame, clearedSlots_length, frameBytes]; omega

/-- The byte at offset `o` of a cleared half. -/
theorem clearedFrame_getElem? (k : Variant) (n : Nat) {o : Nat} (ho : o < frameBytes k n) :
    (clearedFrame k n)[o]? = some (clearedByte (frameBytes k n) o) := by
  unfold clearedFrame clearedByte
  cases o with
  | zero => simp
  | succ o =>
    rw [List.getElem?_cons_succ]
    by_cases hl : o + 1 + 1 = frameBytes k n
    · have hlen : o = (clearedSlots k n).length := by rw [clearedSlots_length]; unfold frameBytes at hl; omega
      rw [if_pos (.inr hl), List.getElem?_append_right (by omega), hlen]; simp
    · have hlen : o < (clearedSlots k n).length := by rw [clearedSlots_length]; unfold frameBytes at ho hl; omega
      rw [if_neg (by omega), List.getElem?_append_left hlen]
      obtain ⟨q, j, hj, rfl⟩ : ∃ q j, j < 3 ∧ o = 3 * q + j := ⟨o / 3, o % 3, by omega, by omega⟩
      rw [clearedSlots_length] at hlen
      rw [clearedSlots_getElem? k n (by omega) hj]
      interval_cases j
      · rw [if_pos (by omega)]; rfl
      · rw [if_neg (by omega), if_pos (by omega)]; rfl
      · rw [if_neg (by omega), if_neg (by omega)]; rfl

/-! ### Places -/

theorem slot_eq (s : State) (h : Half) (i : Nat) : s.slot h i = s.base h + 1 + i * (3 * channels s.cfg.variant) := by
  simp only [State.slot, slotAddr, State.base, Nat.mul_assoc]

theorem base_a (s : State) : s.base .a = 0 := by simp [State.base, halfBase, halfIndex]

theorem base_b (s : State) : s.base .b = s.fs := by simp [State.base, halfBase, halfIndex]

/-- The two halves do not overlap. -/
theorem halves_disjoint (s : State) (h : Half) {a : Nat} (h1 : s.base h ≤ a) (h2 : a < s.base h + s.fs) :
    a < s.base h.other ∨ s.base h.other + s.fs ≤ a := by
  cases h <;> simp only [Half.other, base_a, base_b] at * <;> omega

/-- Each half lies in the first `2 * FS` bytes, and these are the two halves. -/
theorem in_half_iff (s : State) (a : Nat) : a < 2 * s.fs ↔ ∃ h, s.base h ≤ a ∧ a < s.base h + s.fs := by
  constructor
  · intro h
    by_cases ha : a < s.fs
    · exact ⟨.a, by rw [base_a]; omega, by rw [base_a]; omega⟩
    · exact ⟨.b, by rw [base_b]; omega, by rw [base_b]; omega⟩
  · rintro ⟨h, h1, h2⟩
    cases h <;> simp only [base_a, base_b] at * <;> omega

/-- A slot of a frame of `N` pixels lies between the preamble and the trailer. -/
theorem slot_bounds {s : State} (hf : s.fs = frameBytes s.cfg.variant s.n.toNat) (h : Half) {i : Nat} (hi : i < s.n.toNat) :
    s.base h + 1 ≤ s.slot h i ∧ s.slot h i + 3 * channels s.cfg.variant ≤ s.base h + s.fs - 1 := by
  rw [slot_eq, hf]
  unfold frameBytes
  rcases channels_cases s.cfg.variant with hc | hc <;> rw [hc] <;> omega

/-- The base address of a half is a 21-bit number. -/
theorem base_lt (s : State) (h : Half) : s.base h < 2 ^ 21 := by
  have := s.frameSize.isLt
  cases h
  · rw [base_a]; omega
  · rw [base_b]; unfold State.fs; omega

theorem frameBytes_lt (k : Variant) (n : Count) : frameBytes k n.toNat < 2 ^ 20 := by
  have := n.isLt
  cases k <;> simp only [frameBytes, channels] <;> omega

/-! ### What the RAM-writing operations leave -/

/-- SETLEN's RAM: the two cleared halves and nothing else. -/
theorem allocate_read (s : State) (n : Count) (a : Nat) :
    Memory.read (s.allocate n).ram a =
      if a < 2 * frameBytes s.cfg.variant n.toNat then
        some (clearedByte (frameBytes s.cfg.variant n.toNat) (a % frameBytes s.cfg.variant n.toNat))
      else none := by
  have hpos : 0 < frameBytes s.cfg.variant n.toNat := by unfold frameBytes; omega
  generalize hfs : frameBytes s.cfg.variant n.toNat = fs at hpos
  have hl := clearedFrame_length s.cfg.variant n.toNat
  have hg := fun o => clearedFrame_getElem? s.cfg.variant n.toNat (o := o)
  rw [hfs] at hl hg
  rw [State.allocate_ram, hfs, Memory.read_writeBytes, Memory.read_writeBytes, hl]
  by_cases h1 : a < fs
  · rw [if_pos (by omega), if_pos (by omega), Nat.sub_zero, hg a h1, Nat.mod_eq_of_lt h1]
  · by_cases h2 : a < 2 * fs
    · rw [if_neg (by omega), if_pos (by omega), if_pos h2, hg (a - fs) (by omega),
        Nat.mod_eq_sub_mod (by omega), Nat.mod_eq_of_lt (show a - fs < fs by omega)]
    · rw [if_neg (by omega), if_neg (by omega), if_neg h2]; rfl

end Sys2Proof.Machine
end

