-- ==== Sys2Proof/Laws/Exec.lean ====
section
/-! SUPPORT. Everything each command can do when it goes on, said once per command, and what all of them leave alone. -/

namespace Sys2Proof.Machine

theorem setPixel_next {idx : Count} {r g b w : Byte} {s t : State} (h : setPixel idx r g b w s = .next t) :
    (s.n.toNat ≤ idx.toNat ∧ t = { s with status := 1, pc := s.pc + 1 }) ∨
    (idx.toNat < s.n.toNat ∧ t = { s with
      ram := Memory.writeBytes s.ram (s.slot s.active idx.toNat) (slotBytes s.cfg.variant r g b w)
      status := 0, pc := s.pc + 1 }) := by
  unfold setPixel at h
  split at h
  · next hlt =>
    rw [complete_eq] at h
    cases h
    exact .inr ⟨BitVec.lt_def.mp hlt, by simp only [State.writePixel, State.setRam]⟩
  · next hlt => cases h; exact .inl ⟨by rw [BitVec.lt_def] at hlt; omega, rfl⟩

theorem execClear_next {s t : State} (h : execClear s = .next t) :
    (s.valid = false ∧ t = { s with status := 0, pc := s.pc + 1 }) ∨
    (s.valid = true ∧ t = { s with
      ram := Memory.writeBytes s.ram (s.slot s.active 0) (clearedSlots s.cfg.variant s.n.toNat)
      status := 0, pc := s.pc + 1 }) := by
  unfold execClear at h
  split at h
  · next hv => cases h; exact .inr ⟨hv, rfl⟩
  · next hv => cases h; exact .inl ⟨by simpa using hv, rfl⟩

theorem execBeginTransport_next {s t : State} (h : execBeginTransport s = .next t) :
    (s.begun = true ∧ t = { s with status := 0, pc := s.pc + 1 }) ∨
    (s.begun = false ∧ t = { s with begun := true, events := s.events ++ [.transportInit], status := 0, pc := s.pc + 1 }) := by
  unfold execBeginTransport at h
  split at h
  · next hb => cases h; exact .inl ⟨hb, rfl⟩
  · next hb => cases h; exact .inr ⟨by simpa using hb, rfl⟩

theorem execSetlen_next {n : Count} {s t : State} (hh : ¬ s.Held) (h : execSetlen n s = .next t) :
    (2 * frameBytes s.cfg.variant n.toNat ≤ s.cfg.bufCap.val ∧
      t = { ((s.checked .setlen).release.allocate n) with status := 0, pc := s.pc + 1 }) ∨
    (s.cfg.bufCap.val < 2 * frameBytes s.cfg.variant n.toNat ∧
      t = { (s.checked .setlen).release with status := 2, pc := s.pc + 1 }) := by
  have h : exec (.setlen n) s = .next t := h
  have hpc : (s.checked .setlen).pc = s.pc := by rw [State.checked_eq]
  rw [exec_setlen_of_not_held n hh] at h
  split at h
  · next hc => cases h; exact .inl ⟨hc, by rw [← hpc]; rfl⟩
  · next hc => cases h; exact .inr ⟨by omega, by rw [← hpc]; rfl⟩

theorem execTeardown_next {s t : State} (hh : ¬ s.Held) (h : execTeardown s = .next t) :
    t = { (s.checked .teardown).release with begun := false, status := 0, pc := s.pc + 1 } := by
  have h : exec .teardown s = .next t := h
  have hpc : (s.checked .teardown).pc = s.pc := by rw [State.checked_eq]
  rw [exec_teardown_of_not_held hh] at h
  cases h; rw [← hpc]; rfl

theorem execShowFrame_next {c : Bool} {s t : State} (hh : ¬ s.Held) (h : execShowFrame c s = .next t) :
    (s.begun = false ∧ t = { s with status := 4, pc := s.pc + 1 }) ∨
    (s.begun = true ∧ s.valid = false ∧ t = { s with status := 5, pc := s.pc + 1 }) ∨
    (s.begun = true ∧ s.valid = true ∧ ∃ m, t = { s.checked .showFrame with
        active := s.active.other
        tx := .busy { half := s.active, base := BitVec.ofNat 21 (s.base s.active), len := s.frameSize, pos := 0, bytes := [] }
        events := s.events ++ [.transferStart (BitVec.ofNat 21 (s.base s.active)) s.frameSize]
        ram := m, status := 0, pc := s.pc + 1 } ∧
      (c = false ∧ m = s.ram ∨
       c = true ∧ Memory.copy s.ram (s.base s.active.other) (s.base s.active) s.fs = some m)) := by
  cases hb : s.begun with
  | false =>
    rw [show execShowFrame c s = raise .errNotBegun s by simp [execShowFrame, hb]] at h
    cases h; exact .inl ⟨rfl, by rw [← hb]; rfl⟩
  | true =>
    cases hv : s.valid with
    | false =>
      rw [show execShowFrame c s = raise .errDisabled s by simp [execShowFrame, hb, hv]] at h
      cases h; exact .inr (.inl ⟨rfl, rfl, by rw [← hv, ← hb]; rfl⟩)
    | true =>
      have h : exec (.showFrame c) s = .next t := h
      rw [exec_showFrame_of_not_held c hb hv hh] at h
      obtain ⟨m, rfl, hm⟩ := sendFrame_next h
      refine .inr (.inr ⟨rfl, rfl, m, ?_, ?_⟩)
      · rw [State.checked_eq s .showFrame]; rfl
      · rw [State.checked_eq s .showFrame] at hm; exact hm

/-- A held SHOW that fails its own status checks is not held; every other held command is the Transport's step. -/
theorem execShowFrame_of_held {c : Bool} {s t : State} (hh : s.Held) (h : execShowFrame c s = .next t) :
    (s.begun = false ∧ t = { s with status := 4, pc := s.pc + 1 }) ∨
    (s.begun = true ∧ s.valid = false ∧ t = { s with status := 5, pc := s.pc + 1 }) ∨
    (s.begun = true ∧ s.valid = true ∧ transportStep s = .next t) := by
  cases hb : s.begun with
  | false =>
    rw [show execShowFrame c s = raise .errNotBegun s by simp [execShowFrame, hb]] at h
    cases h; exact .inl ⟨rfl, by rw [← hb]; rfl⟩
  | true =>
    cases hv : s.valid with
    | false =>
      rw [show execShowFrame c s = raise .errDisabled s by simp [execShowFrame, hb, hv]] at h
      cases h; exact .inr (.inl ⟨rfl, rfl, by rw [← hv, ← hb]; rfl⟩)
    | true =>
      have e : exec (.showFrame c) s = transportStep s := exec_of_held hh rfl fun _ => ⟨hb, hv⟩
      exact .inr (.inr ⟨rfl, rfl, e ▸ h⟩)

/-- A command that goes on either was held, and the step was the Transport's, or completed: the pc moved on by 1, and the
configuration, the host's sequence and the model's inputs are as they were. -/
theorem exec_next {i : Instr} {s t : State} (h : exec i s = .next t) :
    (s.Held ∧ transportStep s = .next t ∧ ∃ op, restriction i = some op) ∨
    (t.pc = s.pc + 1 ∧ t.cfg = s.cfg ∧ t.program = s.program ∧ t.schedule = s.schedule ∧ t.draws = s.draws ∧
      t.drawCount = s.drawCount) := by
  cases i with
  | encodeByte v => cases h; exact .inr ⟨rfl, rfl, rfl, rfl, rfl, rfl⟩
  | decodePattern p => cases h; exact .inr ⟨rfl, rfl, rfl, rfl, rfl, rfl⟩
  | pack r g b w => cases h; exact .inr ⟨rfl, rfl, rfl, rfl, rfl, rfl⟩
  | pixcnt => cases h; exact .inr ⟨rfl, rfl, rfl, rfl, rfl, rfl⟩
  | clear => obtain ⟨-, rfl⟩ | ⟨-, rfl⟩ := execClear_next h <;> exact .inr ⟨rfl, rfl, rfl, rfl, rfl, rfl⟩
  | setpix idx r g b w => obtain ⟨-, rfl⟩ | ⟨-, rfl⟩ := setPixel_next h <;> exact .inr ⟨rfl, rfl, rfl, rfl, rfl, rfl⟩
  | setpixp idx col => obtain ⟨-, rfl⟩ | ⟨-, rfl⟩ := setPixel_next h <;> exact .inr ⟨rfl, rfl, rfl, rfl, rfl, rfl⟩
  | beginTransport =>
    obtain ⟨-, rfl⟩ | ⟨-, rfl⟩ := execBeginTransport_next h <;> exact .inr ⟨rfl, rfl, rfl, rfl, rfl, rfl⟩
  | setlen n =>
    by_cases hh : s.Held
    · exact .inl ⟨hh, by rwa [exec_of_held hh (op := .setlen) rfl (by simp)] at h, .setlen, rfl⟩
    · obtain ⟨-, rfl⟩ | ⟨-, rfl⟩ := execSetlen_next hh h <;>
      · rw [State.checked_eq]; exact .inr ⟨rfl, rfl, rfl, rfl, rfl, rfl⟩
  | teardown =>
    by_cases hh : s.Held
    · exact .inl ⟨hh, by rwa [exec_of_held hh (op := .teardown) rfl (by simp)] at h, .teardown, rfl⟩
    · cases execTeardown_next hh h
      rw [State.checked_eq]; exact .inr ⟨rfl, rfl, rfl, rfl, rfl, rfl⟩
  | showFrame c =>
    by_cases hh : s.Held
    · obtain ⟨-, rfl⟩ | ⟨-, -, rfl⟩ | ⟨-, -, h⟩ := execShowFrame_of_held hh h
      · exact .inr ⟨rfl, rfl, rfl, rfl, rfl, rfl⟩
      · exact .inr ⟨rfl, rfl, rfl, rfl, rfl, rfl⟩
      · exact .inl ⟨hh, h, .showFrame, rfl⟩
    · obtain ⟨-, rfl⟩ | ⟨-, -, rfl⟩ | ⟨-, -, m, rfl, -⟩ := execShowFrame_next hh h
      · exact .inr ⟨rfl, rfl, rfl, rfl, rfl, rfl⟩
      · exact .inr ⟨rfl, rfl, rfl, rfl, rfl, rfl⟩
      · rw [State.checked_eq]; exact .inr ⟨rfl, rfl, rfl, rfl, rfl, rfl⟩

/-- Everything a step can be: a command or an illegal word run, or a transport step, from the state with the schedule's head
used up where it was asked. -/
theorem step_next {s t : State} (h : step s = .next t) :
    ∃ rest, (∃ w, s.nextCommand = some w ∧ runCommand w { s with schedule := rest } = .next t) ∨
      transportStep { s with schedule := rest } = .next t := by
  unfold step State.nextMove at h
  split at h
  · next w u hm =>
    split at hm
    · cases hm
    · cases hm
    · next w' hw htx => cases hm; exact ⟨s.schedule, .inl ⟨w, hw, h⟩⟩
    · next w' x hw htx =>
      split at hm
      · cases hm; exact ⟨s.schedule, .inl ⟨w, hw, h⟩⟩
      · next rest hs => cases hm; exact ⟨rest, .inl ⟨w, hw, h⟩⟩
      · cases hm
  · next u hm =>
    split at hm
    · cases hm
    · cases hm; exact ⟨s.schedule, .inr h⟩
    · cases hm
    · split at hm
      · cases hm
      · cases hm
      · next rest hs => cases hm; exact ⟨rest, .inr h⟩
  · cases h

end Sys2Proof.Machine
end

