-- ==== Sys2Proof/Laws/Run.lean ====
section
/-! SUPPORT. Runs of the machine, one step at a time. -/

namespace Sys2Proof.Machine

theorem run_zero (s : State) : core.run 0 s = .next s := rfl

theorem host_run_succ (M : Host.Core) (m : Nat) (s : M.State) : M.run (m + 1) s =
    match M.step s with
    | .next u => M.run m u
    | .fault r => .fault r
    | .refused r => .refused r := by
  cases h : M.step s <;> simp only [Host.Core.run, h]

theorem host_run_succ_of_next (M : Host.Core) {m : Nat} {s u : M.State} (h : M.step s = .next u) :
    M.run (m + 1) s = M.run m u := by
  rw [host_run_succ, h]

theorem host_run_succ_next (M : Host.Core) {m : Nat} {s t : M.State} (h : M.run (m + 1) s = .next t) :
    ∃ u, M.step s = .next u ∧ M.run m u = .next t := by
  rw [host_run_succ] at h
  split at h
  · next u hu => exact ⟨u, hu, h⟩
  · cases h
  · cases h

theorem run_succ_of_next {m : Nat} {s u : State} (h : step s = .next u) : core.run (m + 1) s = core.run m u :=
  host_run_succ_of_next core h

/-- A run of one step more that goes on begins with a step that goes on. -/
theorem run_succ_next {m : Nat} {s t : State} (h : core.run (m + 1) s = .next t) :
    ∃ u, step s = .next u ∧ core.run m u = .next t := host_run_succ_next core h

/-- An invariant of single steps holds along every run. -/
theorem run_induction {P : State → Prop} (hp : ∀ s t, P s → step s = .next t → P t) {m : Nat} {s t : State} (hs : P s)
    (h : core.run m s = .next t) : P t := by
  induction m generalizing s with
  | zero => cases h; exact hs
  | succ m ih =>
    obtain ⟨u, hu, h⟩ := run_succ_next h
    exact ih (hp s u hs hu) h

end Sys2Proof.Machine
end

