-- ==== Sys2Proof/Laws/Invariant.lean ====
section
/-! SUPPORT. How the operations that the commands are built from keep the invariant of Sys2Proof/Safety.lean. -/

namespace Sys2Proof.Machine

/-- What the registers say of a block that holds a buffer. -/
theorem Inv.enabled {s : State} (hi : Inv s) (hv : s.valid = true) :
    s.fs = frameBytes s.cfg.variant s.n.toNat ∧ 2 * s.fs ≤ s.cfg.bufCap.val := by
  have hr := hi.registers; unfold State.RegistersAgree at hr; rwa [if_pos hv] at hr
/-- Every byte of the DoubleBuffer holds a value. -/
theorem Inv.readable {s : State} (hi : Inv s) (hv : s.valid = true) {a : Nat} (ha : a < 2 * s.fs) :
    (Memory.read s.ram a).isSome := by
  rw [hi.ram.2 a]; simp [hv, ha]
/-- Each half holds a frame's bytes. -/
theorem Inv.half_readable {s : State} (hi : Inv s) (hv : s.valid = true) (h : Half) :
    ∃ vs, Memory.readBytes s.ram (s.base h) s.fs = some vs := by
  refine Memory.exists_readBytes fun j hj => hi.readable hv ?_
  rw [in_half_iff]; exact ⟨h, by omega, by omega⟩

/-- A state that differs only in what the invariant does not speak of, but for STATUS and the pc. -/
theorem inv_of_frame {s t : State} (hi : Inv s)
    (h : t = { s with status := t.status, result := t.result, pc := t.pc, events := t.events, schedule := t.schedule,
                      draws := t.draws, drawCount := t.drawCount })
    (h1 : t.status.toNat ≤ 6) (h2 : t.pc ≤ t.program.length) : Inv t := by
  have hreg : t.RegistersAgree := by rw [h]; exact hi.registers
  have hram : t.RamHoldsTheBuffer := by rw [h]; exact hi.ram
  have hbr : t.valid = true → ∀ k, t.Bracketed k := by rw [h]; exact hi.bracketed
  have hcw : t.valid = true → ∀ k, t.SlotsHoldCodewords k := by rw [h]; exact hi.codewords
  have htr : t.TransferInRange := by rw [h]; exact hi.transfer
  have hin : t.TransferReadsInactiveHalf := by rw [h]; exact hi.inactive
  exact ⟨hreg, hram, hbr, hcw, h1, h2, htr, hin⟩

theorem allocate_ram_wf (s : State) (n : Count) : Memory.wf (s.allocate n).ram :=
  Memory.writeBytes_wf _ _ (Memory.writeBytes_wf _ _ List.Pairwise.nil)

/-- Giving up the DoubleBuffer keeps the invariant, once the violation is recorded where a transfer is in flight. -/
theorem inv_release {s t : State}
    (h : t = { s with valid := false, n := 0, frameSize := 0, active := .a, ram := [], begun := t.begun,
                      status := t.status, pc := t.pc, faultBits := t.faultBits }) (hi : Inv s)
    (h1 : t.status.toNat ≤ 6) (h2 : t.pc ≤ t.program.length) (h3 : s.tx ≠ .idle → t.faultBits ≠ .empty) : Inv t := by
  refine ⟨?_, ?_, ?_, ?_, h1, h2, ?_, ?_⟩
  · unfold State.RegistersAgree; rw [h]; exact ⟨rfl, rfl, rfl⟩
  · rw [h]; exact ⟨List.Pairwise.nil, fun a => by simp [Memory.read]⟩
  · rw [h]; intro h; cases h
  · rw [h]; intro h; cases h
  · rw [h]; exact hi.transfer
  · intro x hx hf; rw [h] at hx
    exact absurd hf (h3 (by show s.tx ≠ _; rw [show s.tx = .busy x from hx]; simp))

/-- An allocation establishes it, under the same condition. -/
theorem inv_allocate {s t : State} (n : Count) (hc : 2 * frameBytes s.cfg.variant n.toNat ≤ s.cfg.bufCap.val)
    (h : t = { s.allocate n with begun := t.begun, status := t.status, pc := t.pc, faultBits := t.faultBits })
    (hi : s.TransferInRange) (h1 : t.status.toNat ≤ 6) (h2 : t.pc ≤ t.program.length) (h3 : s.tx ≠ .idle → t.faultBits ≠ .empty) : Inv t := by
  have hfs : t.fs = frameBytes s.cfg.variant n.toNat := by
    rw [h]; show (BitVec.ofNat 20 (frameBytes s.cfg.variant n.toNat)).toNat = _
    rw [BitVec.toNat_ofNat, Nat.mod_eq_of_lt (frameBytes_lt _ _)]
  have hcfg : t.cfg = s.cfg := by rw [h]; rfl
  have hn : t.n = n := by rw [h]; rfl
  have hv : t.valid = true := by rw [h]; rfl
  have hread : ∀ a, Memory.read t.ram a = if a < 2 * t.fs then some (clearedByte t.fs (a % t.fs)) else none := by
    intro a; rw [hfs]; rw [h]; exact allocate_read s n a
  have hpos : 2 ≤ t.fs := by rw [hfs]; unfold frameBytes; omega
  have hhalf : ∀ (k : Half) o, o < t.fs → Memory.read t.ram (t.base k + o) = some (clearedByte t.fs o) := by
    intro k o ho
    have : (t.base k + o) % t.fs = o := by cases k <;> simp only [base_a, base_b] <;> simp [Nat.mod_eq_of_lt ho]
    rw [hread, this, if_pos ((in_half_iff t _).mpr ⟨k, by omega, by omega⟩)]
  refine ⟨?_, ⟨?_, fun a => ?_⟩, fun _ k => ⟨?_, ?_⟩, ?_, h1, h2, ?_, ?_⟩
  · unfold State.RegistersAgree; rw [if_pos hv, hfs, hcfg, hn]; exact ⟨rfl, hc⟩
  · rw [h]; exact allocate_ram_wf s n
  · rw [hread]; by_cases ha : a < 2 * t.fs <;> simp [ha, hv]
  · have := hhalf k 0 (by omega); simpa [clearedByte] using this
  · have := hhalf k (t.fs - 1) (by omega)
    rw [show t.base k + t.fs - 1 = t.base k + (t.fs - 1) by omega, this]; simp [clearedByte]; omega
  · intro _ k i hi j hj
    refine ⟨0, Memory.readBytes_of_reads (tripletBytes_length _) fun r hr => ?_⟩
    have hb := slot_bounds (s := t) (by rw [hfs, hcfg, hn]) k hi
    rw [slot_eq] at hb ⊢
    rw [show t.base k + 1 + i * (3 * channels t.cfg.variant) + 3 * j + r =
        t.base k + (1 + i * (3 * channels t.cfg.variant) + 3 * j + r) by omega, hhalf k _ (by omega), tripletBytes_getElem? _ hr]
    have hm : (1 + i * (3 * channels t.cfg.variant) + 3 * j + r) % 3 = (1 + r) % 3 := by
      rcases channels_cases t.cfg.variant with hc | hc <;> rw [hc] <;> omega
    unfold clearedByte
    rw [if_neg (by omega), hm]
    interval_cases r <;> rfl
  · rw [h]; exact hi
  · intro x hx hf; rw [h] at hx
    exact absurd hf (h3 (by rw [show s.tx = .busy x from hx]; simp))

/-- Writing codewords over whole slots of the active half keeps it. -/
theorem inv_write {s t : State} (hi : Inv s) (hv : s.valid = true) (i0 m : Nat) (bs : List Byte)
    (hbs : bs.length = m * (3 * channels s.cfg.variant)) (hm : i0 + m ≤ s.n.toNat)
    (hcw : ∀ q, q < m * channels s.cfg.variant → ∃ v : Byte, ∀ j, j < 3 → bs[3 * q + j]? = (tripletBytes (lut v))[j]?)
    (h : t = { s with ram := Memory.writeBytes s.ram (s.slot s.active i0) bs, status := t.status, pc := t.pc })
    (h1 : t.status.toNat ≤ 6) (h2 : t.pc ≤ t.program.length) : Inv t := by
  obtain ⟨hfs, hcap⟩ := hi.enabled hv
  have hread : ∀ a, Memory.read t.ram a =
      if s.slot s.active i0 ≤ a ∧ a < s.slot s.active i0 + bs.length then bs[a - s.slot s.active i0]? else Memory.read s.ram a := by
    intro a; rw [h]; exact Memory.read_writeBytes _ _ _ _
  have hse := slot_eq s s.active i0
  have hin : s.base s.active + 1 ≤ s.slot s.active i0 ∧ s.slot s.active i0 + bs.length + 1 ≤ s.base s.active + s.fs := by
    rw [hse, hbs, hfs]; unfold frameBytes
    rcases channels_cases s.cfg.variant with hc | hc <;> rw [hc] <;> omega
  have hout : ∀ a, a < s.base s.active + 1 ∨ s.base s.active + s.fs ≤ a + 1 →
      Memory.read t.ram a = Memory.read s.ram a := by
    intro a ha; rw [hread, if_neg (by omega)]
  have hreg : t.RegistersAgree := by rw [h]; exact hi.registers
  have hbase : ∀ k, t.base k = s.base k := by intro k; rw [h]; rfl
  have hfst : t.fs = s.fs := by rw [h]; rfl
  have hslot : ∀ k i, t.slot k i = s.slot k i := by intro k i; rw [h]; rfl
  have hcfg : t.cfg = s.cfg := by rw [h]
  have hn : t.n = s.n := by rw [h]
  refine ⟨hreg, ⟨?_, fun a => ?_⟩, fun _ k => ⟨?_, ?_⟩, fun _ k i hik c hc => ?_, h1, h2, ?_, ?_⟩
  · rw [h]; exact Memory.writeBytes_wf _ _ hi.ram.1
  · have hval : t.valid = s.valid := by rw [h]
    rw [hread, hfst, hval, ← hi.ram.2 a]
    split
    · next hr =>
      rw [hi.ram.2 a]
      have : a < 2 * s.fs := (in_half_iff s a).mpr ⟨s.active, by omega, by omega⟩
      simp [hv, this]; omega
    · rfl
  · rw [hbase]
    have := (hi.bracketed hv k).1
    rw [hout _ ?_, this]
    rcases Half.eq_or_eq_other k s.active with rfl | rfl
    · omega
    · have h2fs : 2 ≤ s.fs := by rw [hfs]; unfold frameBytes; omega
      have := halves_disjoint s s.active.other (a := s.base s.active.other) (by omega) (by omega)
      rw [Half.other_other] at this; omega
  · rw [hbase, hfst]
    have h2fs : 2 ≤ s.fs := by rw [hfs]; unfold frameBytes; omega
    have := (hi.bracketed hv k).2
    rw [hout _ ?_, this]
    rcases Half.eq_or_eq_other k s.active with rfl | rfl
    · omega
    · have := halves_disjoint s s.active.other (a := s.base s.active.other + s.fs - 1) (by omega) (by omega)
      rw [Half.other_other] at this; omega
  · rw [hslot]; rw [hn] at hik; rw [hcfg] at hc
    have hb := slot_bounds hfs k hik
    obtain ⟨v, hv'⟩ := hi.codewords hv k i hik c hc
    by_cases hin' : k = s.active ∧ i0 ≤ i ∧ i < i0 + m
    · obtain ⟨rfl, hi1, hi2⟩ := hin'
      have hq : (i - i0) * channels s.cfg.variant + c < m * channels s.cfg.variant := by
        have hcc := channels_cases s.cfg.variant
        generalize channels s.cfg.variant = cc at *
        rcases hcc with rfl | rfl <;> omega
      obtain ⟨v, hv⟩ := hcw _ hq
      refine ⟨v, Memory.readBytes_of_reads (tripletBytes_length _) fun j hj => ?_⟩
      rw [← hv j hj, hread]
      have e : s.slot s.active i + 3 * c + j = s.slot s.active i0 + (3 * ((i - i0) * channels s.cfg.variant + c) + j) := by
        rw [slot_eq, slot_eq]
        rcases channels_cases s.cfg.variant with hc | hc <;> rw [hc] <;> omega
      have hlt : 3 * ((i - i0) * channels s.cfg.variant + c) + j < bs.length := by
        rw [hbs]; rcases channels_cases s.cfg.variant with hc | hc <;> rw [hc] at hq ⊢ <;> omega
      rw [e, if_pos (by omega), Nat.add_sub_cancel_left]
    · refine ⟨v, ?_⟩
      rw [Memory.readBytes_congr (m := s.ram)]; exact hv'
      intro j hj
      rw [hread, if_neg]
      intro hcon
      rcases Half.eq_or_eq_other k s.active with rfl | rfl
      · have hnin : ¬ (i0 ≤ i ∧ i < i0 + m) := fun h => hin' ⟨rfl, h⟩
        rw [hbs, hse, slot_eq] at hcon; rw [slot_eq] at hb
        have hcc := channels_cases s.cfg.variant
        generalize channels s.cfg.variant = cc at *
        rcases hcc with rfl | rfl <;> omega
      · have := halves_disjoint s s.active.other (a := s.slot s.active.other i + 3 * c + j) (by omega) (by omega)
        rw [Half.other_other] at this; omega
  · rw [h]; exact hi.transfer
  · intro x hx hf
    have hx : s.tx = .busy x := by rw [h] at hx; exact hx
    have hf : s.faultBits = .empty := by rw [h] at hf; exact hf
    obtain ⟨a1, a2, a3, a4, a5, a6⟩ := hi.inactive x hx hf
    have ha : t.active = s.active := by rw [h]
    refine ⟨by rw [h]; exact a1, by rw [h]; exact a2, by rw [ha]; exact a3, by rw [hbase]; exact a4,
      by rw [h]; exact a5, ?_⟩
    rw [hbase, Memory.readBytes_congr (m := s.ram)]; exact a6
    intro j hj
    have hxr := hi.transfer x hx
    have hlen : x.len.toNat = s.fs := by rw [a5]; rfl
    refine hout _ ?_
    rw [a3]
    have := halves_disjoint s s.active.other (a := s.base s.active.other + j) (by omega) (by omega)
    rw [Half.other_other] at this; omega

/-- A transport step keeps it. -/
theorem inv_transport {s t : State} (hi : Inv s) (h : transportStep s = .next t) : Inv t := by
  obtain ⟨x, hx, ⟨hp, v, hv, rfl⟩ | ⟨hp, rfl⟩⟩ := transportStep_next h
  · obtain ⟨r1, r2⟩ := hi.transfer x hx
    refine ⟨hi.registers, hi.ram, hi.bracketed, hi.codewords, hi.status, hi.pc, fun y hy => ?_, fun y hy hf => ?_⟩
    · cases hy; exact ⟨hp, by simp [r2]⟩
    · cases hy
      obtain ⟨a1, a2, a3, a4, a5, a6⟩ := hi.inactive x hx hf
      refine ⟨a1, a2, a3, a4, a5, Memory.readBytes_of_reads (by simp [r2]) fun j hj => ?_⟩
      show Memory.read s.ram (s.base x.half + j) = (x.bytes ++ [v])[j]?
      by_cases hjp : j < x.pos
      · rw [Memory.read_of_readBytes a6 hjp, List.getElem?_append_left (by omega)]
      · have hjp : j < x.pos + 1 := hj
        have : j = x.pos := by omega
        subst this
        rw [← a4, hv, List.getElem?_append_right (by omega), r2]; simp
  · rw [State.dropDraw_eq]
    exact { registers := hi.registers, ram := hi.ram, bracketed := hi.bracketed, codewords := hi.codewords,
            status := hi.status, pc := hi.pc, transfer := fun y hy => Tx.noConfusion hy, inactive := fun y hy => Tx.noConfusion hy }

end Sys2Proof.Machine
end

