-- ==== Sys2Proof/Laws/PerInstr.lean ====
section
/-! SUPPORT. The per-instruction law EncodingRow: a command's word matches its row of spec/30_encoding.md R73. -/

namespace Sys2Proof.Laws.EncodingRow

/-- The word of the command passes its own row's mask test (R73). -/
def Statement (i : Instr) : Prop := encode i &&& (rowOf i).mask = (rowOf i).pattern

/-- A word passes the mask test that keeps everything from bit `lo` up, if the pattern is the word with its low part cut off. -/
theorem and_high_mask {w pattern mask : CommandWord} (lo : Nat) (hm : mask = BitVec.allOnes 64 <<< lo)
    (hp : pattern.toNat = w.toNat / 2 ^ lo * 2 ^ lo) : w &&& mask = pattern := by
  have hp' : pattern = w >>> lo <<< lo := by
    apply BitVec.eq_of_toNat_eq
    rw [BitVec.toNat_shiftLeft, BitVec.toNat_ushiftRight, Nat.shiftRight_eq_div_pow, Nat.shiftLeft_eq, ← hp,
      Nat.mod_eq_of_lt pattern.isLt]
  subst hm hp'
  apply BitVec.eq_of_getLsbD_eq
  intro j hj
  simp only [BitVec.getLsbD_and, BitVec.getLsbD_shiftLeft, BitVec.getLsbD_ushiftRight, BitVec.getLsbD_allOnes]
  by_cases h : j < lo
  · simp [h]
  · simp [h, hj, show lo + (j - lo) = j by omega, show j - lo < 64 by omega]

theorem encodeByte (v : Byte) : Statement (.encodeByte v) := by
  show encode _ &&& 0xFFFFFFFFFFFFFF00#64 = 0x0100000000000000#64
  refine and_high_mask 8 (by decide) ?_
  rw [encode_encodeByte_toNat, BitVec.toNat_ofNat]; omega

theorem decodePattern (p : Pattern) : Statement (.decodePattern p) := by
  show encode _ &&& 0xFFFFFFFFFF000000#64 = 0x0200000000000000#64
  refine and_high_mask 24 (by decide) ?_
  rw [encode_decodePattern_toNat, BitVec.toNat_ofNat]; omega

theorem pack (r g b w : Byte) : Statement (.pack r g b w) := by
  show encode _ &&& 0xFFFFFFFF00000000#64 = 0x0300000000000000#64
  refine and_high_mask 32 (by decide) ?_
  rw [encode_pack_toNat, BitVec.toNat_ofNat]; omega

theorem setlen (n : Count) : Statement (.setlen n) := by
  show encode _ &&& 0xFFFFFFFFFFFF0000#64 = 0x1000000000000000#64
  refine and_high_mask 16 (by decide) ?_
  rw [encode_setlen_toNat, BitVec.toNat_ofNat]; omega

theorem clear : Statement .clear := by unfold Statement; decide

theorem pixcnt : Statement .pixcnt := by unfold Statement; decide

theorem teardown : Statement .teardown := by unfold Statement; decide

/-- The mask of the two setters keeps the opcode and the reserved byte. -/
theorem and_setter_mask (w : CommandWord) :
    w &&& 0xFF0000FF00000000#64 = opcodeOf w ++ 0#16 ++ field w 32 8 ++ 0#32 := by
  apply BitVec.eq_of_getLsbD_eq
  intro j hj
  simp only [opcodeOf, field, BitVec.getLsbD_and, BitVec.getLsbD_append, BitVec.getLsbD_extractLsb']
  interval_cases j <;> simp

theorem setpix (n : Count) (r g b w : Byte) : Statement (.setpix n r g b w) := by
  unfold Statement
  have h1 : opcodeOf (encode (.setpix n r g b w)) = 0x20#8 := by
    have := n.isLt; have := r.isLt; have := g.isLt; have := b.isLt; have := w.isLt
    apply BitVec.eq_of_toNat_eq; rw [opcodeOf_toNat, encode_setpix_toNat, BitVec.toNat_ofNat]; omega
  have h2 : field (encode (.setpix n r g b w)) 32 8 = 0 := by
    have := n.isLt; have := r.isLt; have := g.isLt; have := b.isLt; have := w.isLt
    rw [field_eq_zero_iff, encode_setpix_toNat]; omega
  rw [show (rowOf (.setpix n r g b w)).mask = 0xFF0000FF00000000#64 from rfl, and_setter_mask, h1, h2]
  rfl

theorem setpixp (n : Count) (col : Word32) : Statement (.setpixp n col) := by
  unfold Statement
  have h1 : opcodeOf (encode (.setpixp n col)) = 0x21#8 := by
    have := n.isLt; have := col.isLt
    apply BitVec.eq_of_toNat_eq; rw [opcodeOf_toNat, encode_setpixp_toNat, BitVec.toNat_ofNat]; omega
  have h2 : field (encode (.setpixp n col)) 32 8 = 0 := by
    have := n.isLt; have := col.isLt
    rw [field_eq_zero_iff, encode_setpixp_toNat]; omega
  rw [show (rowOf (.setpixp n col)).mask = 0xFF0000FF00000000#64 from rfl, and_setter_mask, h1, h2]
  rfl

theorem beginTransport : Statement .beginTransport := by unfold Statement; decide

theorem showFrame (clone : Bool) : Statement (.showFrame clone) := by
  unfold Statement; cases clone <;> decide

end Sys2Proof.Laws.EncodingRow
end

