-- ==== Sys2Proof/Tests/Slice0.lean ====
section
/-! SUPPORT. The model's own tests: ill-formed source lines, words written out from spec/30_encoding.md R71 to R73, single steps
whose expected results are the vectors of spec/95_test_vectors.md, and for every statement with hypotheses a state and
operands that meet them. -/

namespace Sys2Proof.Tests

open Sys2Proof Sys2Proof.Machine

/-! ### WellFormed: each check refuses an ill-formed line (R77) -/

theorem test_wf_encode : (AsmLine.encodeByte 256).wellFormed = false ∧ (AsmLine.encodeByte 255).wellFormed = true := by decide
theorem test_wf_decode : (AsmLine.decodePattern (2 ^ 24)).wellFormed = false := by decide
theorem test_wf_pack : (AsmLine.pack 256 0 0 0).wellFormed = false ∧ (AsmLine.pack 0 256 0 0).wellFormed = false ∧
    (AsmLine.pack 0 0 256 0).wellFormed = false ∧ (AsmLine.pack 0 0 0 256).wellFormed = false := by decide
theorem test_wf_setlen : (AsmLine.setlen 65536).wellFormed = false := by decide
theorem test_wf_setpix : (AsmLine.setpix 65536 0 0 0 0).wellFormed = false ∧ (AsmLine.setpix 0 256 0 0 0).wellFormed = false ∧
    (AsmLine.setpix 0 0 256 0 0).wellFormed = false ∧ (AsmLine.setpix 0 0 0 256 0).wellFormed = false ∧
    (AsmLine.setpix 0 0 0 0 256).wellFormed = false := by decide
theorem test_wf_setpixp : (AsmLine.setpixp 65536 0).wellFormed = false ∧
    (AsmLine.setpixp 0 (2 ^ 32)).wellFormed = false := by decide
theorem test_wf_show : (AsmLine.showFrame 2).wellFormed = false ∧ (AsmLine.showFrame 1).wellFormed = true := by decide
theorem test_wf_setpixRgb : (AsmLine.setpixRgb 65536 0 0 0).wellFormed = false ∧
    (AsmLine.setpixRgb 0 256 0 0).wellFormed = false ∧ (AsmLine.setpixRgb 0 0 256 0).wellFormed = false ∧
    (AsmLine.setpixRgb 0 0 0 256).wellFormed = false := by decide
theorem test_wf_packRgb : (AsmLine.packRgb 256 0 0).wellFormed = false ∧ (AsmLine.packRgb 0 256 0).wellFormed = false ∧
    (AsmLine.packRgb 0 0 256).wellFormed = false := by decide
theorem test_wf_construct : (AsmLine.construct 65536).wellFormed = false := by decide

/-! ### Decode: words written out field by field from R71 and R73 -/

/-- opcode 01, 48 reserved bits, v = 1010 1010. -/
theorem test_decode_encodeByte :
    decode 0b0000000100000000000000000000000000000000000000000000000010101010#64 = .ok (.encodeByte 0xAA) := by decide
/-- opcode 02, 32 reserved bits, p = 1101 0011 0100 1101 0011 0100. -/
theorem test_decode_decodePattern :
    decode 0b0000001000000000000000000000000000000000110100110100110100110100#64 = .ok (.decodePattern 0xD34D34) := by decide
/-- opcode 03, 24 reserved bits, r = 1, g = 2, b = 3, w_ch = 4. -/
theorem test_decode_pack :
    decode 0b0000001100000000000000000000000000000001000000100000001100000100#64 = .ok (.pack 1 2 3 4) := by decide
/-- opcode 10, 40 reserved bits, n = 1000 0000 0000 0011. -/
theorem test_decode_setlen :
    decode 0b0001000000000000000000000000000000000000000000001000000000000011#64 = .ok (.setlen 0x8003) := by decide
theorem test_decode_n0 : decode 0x1100000000000000#64 = .ok .clear ∧ decode 0x1200000000000000#64 = .ok .pixcnt ∧
    decode 0x1300000000000000#64 = .ok .teardown ∧ decode 0x3000000000000000#64 = .ok .beginTransport := by decide
/-- opcode 20, idx = 1000 0000 0000 0010, 8 reserved bits, r = 10, g = 20, b = 30, w_ch = 255. -/
theorem test_decode_setpix :
    decode 0b0010000010000000000000100000000000001010000101000001111011111111#64 = .ok (.setpix 0x8002 10 20 30 255) := by decide
/-- opcode 21, idx = 2, 8 reserved bits, col = 0x040A141E. -/
theorem test_decode_setpixp :
    decode 0b0010000100000000000000100000000000000100000010100001010000011110#64 = .ok (.setpixp 2 0x040A141E) := by decide
/-- opcode 31, 55 reserved bits, clone. -/
theorem test_decode_show :
    decode 0b0011000100000000000000000000000000000000000000000000000000000001#64 = .ok (.showFrame true) ∧
    decode 0b0011000100000000000000000000000000000000000000000000000000000000#64 = .ok (.showFrame false) := by decide
/-- spec/95 section 2.8, and one reserved bit of each format. -/
theorem test_decode_illegal :
    decode 0x0400000000000000#64 = .illegal (.unassignedOpcode 0x04) ∧
    decode 0xFF00000000000000#64 = .illegal (.unassignedOpcode 0xFF) ∧
    decode 0x1100000000000001#64 = .illegal (.reservedField 0x11) ∧
    decode 0x1000000100000002#64 = .illegal (.reservedField 0x10) ∧
    decode 0x0100000000000100#64 = .illegal (.reservedField 0x01) ∧
    decode 0x0200000001924924#64 = .illegal (.reservedField 0x02) ∧
    decode 0x0300010001020304#64 = .illegal (.reservedField 0x03) ∧
    decode 0x20000001FF000000#64 = .illegal (.reservedField 0x20) ∧
    decode 0x3100000000000002#64 = .illegal (.reservedField 0x31) := by decide
/-- The words of R77's table, in the opcode table's numbering. -/
theorem test_decodeTableWord : decodeTableWord 64 0x200001000A141E00 = some (.setpix 1 10 20 30 0) ∧
    decodeTableWord 64 0x3100000000000001 = some (.showFrame true) ∧ decodeTableWord 64 0 = none := by decide

/-! ### Source text (R77, R78) -/

theorem test_parse_setpix :
    parseLine "SETPIX 2, 255, 0x0A,7 ; red".toList = .line (.setpixRgb 2 255 10 7) := by decide
theorem test_parse_other : parseLine "  ; nothing".toList = .blank ∧ parseLine "SHOWC".toList = .line .showClone ∧
    parseLine "SETLEN".toList = .error ∧ parseLine "SHOW 0x".toList = .error := by decide
/-- R77's table: `SETPIX idx, r, g, b, w`. -/
theorem test_assemble_setpix : assemble (.setpix 1 10 20 30 255) = some (.command (.setpix 1 10 20 30 255)) ∧
    encode (.setpix 1 10 20 30 255) = 0x200001000A141EFF#64 := by decide

/-! ### States -/

/-- RGB, `BUF_CAP = 58` (spec/95 section 2.4: 3 pixels just fit). -/
def rgb58 (m : ContractMode) : Config := { variant := .rgb, bufCap := 58, contractMode := m }

/-- RGBW, `BUF_CAP = 52` (2 pixels just fit). -/
def rgbw52 : Config := { variant := .rgbw, bufCap := 52, contractMode := .hostDuty }

/-- A block after SETLEN n and BEGIN, with the given commands still to come. -/
def enabled (c : Config) (n : Count) (program : List CommandWord) : State :=
  { (State.resetWith c).allocate n with begun := true, events := [.transportInit], program := program }

/-- That block after an accepted SHOW 0, its transfer of half A at the start and Half B active. -/
def sending (c : Config) (n : Count) (program : List CommandWord) : State :=
  (startTransfer .a (enabled c n program)).setActive .b

/-- The bytes of one half. -/
def halfOf (s : State) (h : Half) : Option (List Byte) := s.observeHalf h

/-- What a step's next state gives, if it has one. -/
def after {α : Type} (r : Result) (f : State → α) : Option α :=
  match r with
  | .next t => some (f t)
  | .fault _ => none
  | .refused _ => none

/-! ### Steps: spec/95_test_vectors.md section 2 -/

/-- R100's table at the vectors of section 2.1. -/
theorem test_lut : lut 0x00 = 0x924924 ∧ lut 0x01 = 0x924926 ∧ lut 0x7F = 0x9B6DB6 ∧ lut 0x80 = 0xD24924 ∧
    lut 0xAA = 0xD34D34 ∧ lut 0x55 = 0x9A69A6 ∧ lut 0xFE = 0xDB6DB4 ∧ lut 0xFF = 0xDB6DB6 := by decide
/-- The table printed in spec/40_encoder.md section 4: row hi, column lo, `LUT[16*hi + lo]`. -/
def lutTable : List (List Pattern) :=
    [[0x924924, 0x924926, 0x924934, 0x924936, 0x9249A4, 0x9249A6, 0x9249B4, 0x9249B6,
      0x924D24, 0x924D26, 0x924D34, 0x924D36, 0x924DA4, 0x924DA6, 0x924DB4, 0x924DB6]] ++
    [[0x926924, 0x926926, 0x926934, 0x926936, 0x9269A4, 0x9269A6, 0x9269B4, 0x9269B6,
      0x926D24, 0x926D26, 0x926D34, 0x926D36, 0x926DA4, 0x926DA6, 0x926DB4, 0x926DB6]] ++
    [[0x934924, 0x934926, 0x934934, 0x934936, 0x9349A4, 0x9349A6, 0x9349B4, 0x9349B6,
      0x934D24, 0x934D26, 0x934D34, 0x934D36, 0x934DA4, 0x934DA6, 0x934DB4, 0x934DB6]] ++
    [[0x936924, 0x936926, 0x936934, 0x936936, 0x9369A4, 0x9369A6, 0x9369B4, 0x9369B6,
      0x936D24, 0x936D26, 0x936D34, 0x936D36, 0x936DA4, 0x936DA6, 0x936DB4, 0x936DB6]] ++
    [[0x9A4924, 0x9A4926, 0x9A4934, 0x9A4936, 0x9A49A4, 0x9A49A6, 0x9A49B4, 0x9A49B6,
      0x9A4D24, 0x9A4D26, 0x9A4D34, 0x9A4D36, 0x9A4DA4, 0x9A4DA6, 0x9A4DB4, 0x9A4DB6]] ++
    [[0x9A6924, 0x9A6926, 0x9A6934, 0x9A6936, 0x9A69A4, 0x9A69A6, 0x9A69B4, 0x9A69B6,
      0x9A6D24, 0x9A6D26, 0x9A6D34, 0x9A6D36, 0x9A6DA4, 0x9A6DA6, 0x9A6DB4, 0x9A6DB6]] ++
    [[0x9B4924, 0x9B4926, 0x9B4934, 0x9B4936, 0x9B49A4, 0x9B49A6, 0x9B49B4, 0x9B49B6,
      0x9B4D24, 0x9B4D26, 0x9B4D34, 0x9B4D36, 0x9B4DA4, 0x9B4DA6, 0x9B4DB4, 0x9B4DB6]] ++
    [[0x9B6924, 0x9B6926, 0x9B6934, 0x9B6936, 0x9B69A4, 0x9B69A6, 0x9B69B4, 0x9B69B6,
      0x9B6D24, 0x9B6D26, 0x9B6D34, 0x9B6D36, 0x9B6DA4, 0x9B6DA6, 0x9B6DB4, 0x9B6DB6]] ++
    [[0xD24924, 0xD24926, 0xD24934, 0xD24936, 0xD249A4, 0xD249A6, 0xD249B4, 0xD249B6,
      0xD24D24, 0xD24D26, 0xD24D34, 0xD24D36, 0xD24DA4, 0xD24DA6, 0xD24DB4, 0xD24DB6]] ++
    [[0xD26924, 0xD26926, 0xD26934, 0xD26936, 0xD269A4, 0xD269A6, 0xD269B4, 0xD269B6,
      0xD26D24, 0xD26D26, 0xD26D34, 0xD26D36, 0xD26DA4, 0xD26DA6, 0xD26DB4, 0xD26DB6]] ++
    [[0xD34924, 0xD34926, 0xD34934, 0xD34936, 0xD349A4, 0xD349A6, 0xD349B4, 0xD349B6,
      0xD34D24, 0xD34D26, 0xD34D34, 0xD34D36, 0xD34DA4, 0xD34DA6, 0xD34DB4, 0xD34DB6]] ++
    [[0xD36924, 0xD36926, 0xD36934, 0xD36936, 0xD369A4, 0xD369A6, 0xD369B4, 0xD369B6,
      0xD36D24, 0xD36D26, 0xD36D34, 0xD36D36, 0xD36DA4, 0xD36DA6, 0xD36DB4, 0xD36DB6]] ++
    [[0xDA4924, 0xDA4926, 0xDA4934, 0xDA4936, 0xDA49A4, 0xDA49A6, 0xDA49B4, 0xDA49B6,
      0xDA4D24, 0xDA4D26, 0xDA4D34, 0xDA4D36, 0xDA4DA4, 0xDA4DA6, 0xDA4DB4, 0xDA4DB6]] ++
    [[0xDA6924, 0xDA6926, 0xDA6934, 0xDA6936, 0xDA69A4, 0xDA69A6, 0xDA69B4, 0xDA69B6,
      0xDA6D24, 0xDA6D26, 0xDA6D34, 0xDA6D36, 0xDA6DA4, 0xDA6DA6, 0xDA6DB4, 0xDA6DB6]] ++
    [[0xDB4924, 0xDB4926, 0xDB4934, 0xDB4936, 0xDB49A4, 0xDB49A6, 0xDB49B4, 0xDB49B6,
      0xDB4D24, 0xDB4D26, 0xDB4D34, 0xDB4D36, 0xDB4DA4, 0xDB4DA6, 0xDB4DB4, 0xDB4DB6]] ++
    [[0xDB6924, 0xDB6926, 0xDB6934, 0xDB6936, 0xDB69A4, 0xDB69A6, 0xDB69B4, 0xDB69B6,
      0xDB6D24, 0xDB6D26, 0xDB6D34, 0xDB6D36, 0xDB6DA4, 0xDB6DA6, 0xDB6DB4, 0xDB6DB6]]

theorem test_lut_table :
    ∀ hi lo : Fin 16, (lutTable[hi.val]?.bind fun r => r[lo.val]?) = some (lut (BitVec.ofNat 8 (16 * hi.val + lo.val))) := by
  decide
theorem test_encode : after (exec (.encodeByte 0x7F) (State.resetWith rgbw52)) (fun t => (t.result, t.status, t.pc)) =
    some (0x009B6DB6, 0, 1) := by decide
theorem test_decode : after (exec (.decodePattern 0x926DB4) .reset) (fun t => (t.result, t.status)) = some (0x1E, 0) := by decide
theorem test_decode_pattern :
    after (exec (.decodePattern 0xFFFFFF) .reset) (fun t => (t.result, t.status)) = some (0xFF, 6) := by decide
theorem test_pack_rgb : after (exec (.pack 1 2 3 4) .reset) (fun t => t.result) = some 0x00010203 := by decide
theorem test_pack_rgbw :
    after (exec (.pack 1 2 3 4) (State.resetWith rgbw52)) (fun t => t.result) = some 0x04010203 := by decide
theorem test_setlen_fits : after (exec (.setlen 3) (State.resetWith (rgb58 .fault)))
    (fun t => (t.status, t.n, t.frameSize, t.valid)) = some (0, 3, 29, true) ∧
    after (exec (.setlen 3) (State.resetWith (rgb58 .fault)))
      (fun t => (Memory.readBytes t.ram 26 6, Memory.read t.ram 57, Memory.read t.ram 58)) =
    some (some [0x49, 0x24, 0x00, 0x00, 0x92, 0x49], some 0, none) := by decide
/-- 2*26 = 52 > 51, and the buffer held before is gone. -/
theorem test_setlen_alloc : after (exec (.setlen 2) (enabled { rgbw52 with bufCap := 51 } 1 []))
    (fun t => (t.status, t.n, t.frameSize)) = some (2, 0, 0) ∧
    after (exec (.setlen 2) (enabled { rgbw52 with bufCap := 51 } 1 []))
      (fun t => (t.valid, t.begun, t.ram)) = some (false, true, []) := by decide
theorem test_clear : after (exec (.setpix 1 0 0 255 0) (enabled (rgb58 .fault) 2 []))
    (fun t => after (exec .clear t) fun u => (u.status, halfOf u .a, u.ram == (enabled (rgb58 .fault) 2 []).ram)) =
    some (some (0, some [0, 0x92, 0x49, 0x24, 0x92, 0x49, 0x24, 0x92, 0x49, 0x24, 0x92, 0x49, 0x24, 0x92, 0x49, 0x24,
      0x92, 0x49, 0x24, 0], true)) := by decide
theorem test_clear_disabled : after (exec .clear .reset) (fun t => (t.status, t.ram)) = some (0, []) := by decide
theorem test_pixcnt : after (exec .pixcnt (enabled (rgb58 .fault) 2 [])) (fun t => t.result) = some 2 := by decide
theorem test_teardown : after (exec .teardown { enabled rgbw52 1 [] with result := 7, active := .b })
    (fun t => (t.valid, t.n, t.frameSize, t.active)) = some (false, 0, 0, .a) ∧
    after (exec .teardown { enabled rgbw52 1 [] with result := 7, active := .b })
      (fun t => (t.begun, t.result, t.status, t.ram)) = some (false, 7, 0, []) := by decide
/-- The last slot; the trailer at offset 19 stays 00. -/
theorem test_setpix : after (exec (.setpix 1 0 0 255 9) (enabled (rgb58 .fault) 2 []))
    (fun t => (t.status, Memory.readBytes t.ram 9 11)) =
    some (0, some [0x24, 0x92, 0x49, 0x24, 0x92, 0x49, 0x24, 0xDB, 0x6D, 0xB6, 0x00]) := by decide
theorem test_setpix_index : after (exec (.setpix 2 1 1 1 0) (enabled (rgb58 .fault) 2 []))
    (fun t => (t.status, t.ram == (enabled (rgb58 .fault) 2 []).ram)) = some (1, true) := by decide
theorem test_setpixp_rgbw : after (exec (.setpixp 0 0x04010203) (enabled rgbw52 1 [])) (fun t => Memory.readBytes t.ram 1 12) =
    some (some [0x92, 0x49, 0x34, 0x92, 0x49, 0x26, 0x92, 0x49, 0x36, 0x92, 0x49, 0xA4]) := by decide
/-- ACTIVE = 1: slot 0 of half 1, bytes 30 to 38. -/
theorem test_setpixp_half_b : after (exec (.setpixp 0 0xFFFF0000) { enabled (rgb58 .fault) 3 [] with active := .b })
    (fun t => (Memory.readBytes t.ram 30 9, Memory.read t.ram 4)) =
    some (some [0x92, 0x49, 0x24, 0xDB, 0x6D, 0xB6, 0x92, 0x49, 0x24], some 0x92) := by decide
theorem test_begin : after (exec .beginTransport .reset) (fun t => (t.begun, t.events, t.status)) =
    some (true, [.transportInit], 0) := by decide
theorem test_begin_again :
    after (exec .beginTransport (enabled rgbw52 1 [])) (fun t => (t.events, t.status)) = some ([.transportInit], 0) := by decide
theorem test_show : after (exec (.showFrame false) (enabled (rgb58 .fault) 1 []))
    (fun t => (t.active, t.tx, t.events.getLast?, t.status)) =
    some (.b, .busy { half := .a, base := 0, len := 11, pos := 0, bytes := [] }, some (.transferStart 0 11), 0) := by decide
/-- SHOW 1 from Half B, where the halves differ: Half A becomes equal to Half B. -/
theorem test_show_clone : after (exec (.setpix 0 9 9 9 0) { enabled (rgb58 .fault) 1 [] with active := .b })
    (fun t => after (exec (.showFrame true) t) fun u => (u.active, Memory.readBytes u.ram 0 11)) =
    some (some (.a, some [0, 0x92, 0x4D, 0x26, 0x92, 0x4D, 0x26, 0x92, 0x4D, 0x26, 0])) := by decide
/-- NOT_BEGUN before DISABLED, then DISABLED. -/
theorem test_show_errors : after (exec (.showFrame false) .reset) (fun t => (t.status, t.tx)) = some (4, .idle) ∧
    after (exec (.showFrame false) { State.reset with begun := true }) (fun t => (t.status, t.tx)) = some (5, .idle) := by decide
/-- P4 step 5: the violation is recorded, the new transfer replaces the old one, which emits nothing. -/
theorem test_show_fault_mode : after (exec (.showFrame true) (sending (rgb58 .fault) 1 []))
    (fun t => (t.faultBits, t.active, t.events.length)) =
    some ({ onShow := true, onSetlen := false, onTeardown := false }, .a, 3) := by decide
/-- host_duty: a held SETLEN is the transport's step. -/
theorem test_setlen_held : after (exec (.setlen 1) (sending rgbw52 2 []))
    (fun t => (t.pc, t.n, t.tx)) =
    some (0, 2, .busy { half := .a, base := 0, len := 26, pos := 1, bytes := [0] }) := by decide
/-- Section 2.7: outcome fail(5). -/
theorem test_transfer_fails : after (transportStep { sending (rgb58 .fault) 0 [] with
      tx := .busy { half := .a, base := 0, len := 2, pos := 2, bytes := [0, 0] }, draws := [.fail 1] })
    (fun t => (t.tx, t.events.getLast?, t.status)) = some (.idle, some (.wireFrame .a [0] false), 0) := by decide
/-- The first step after a command word is loaded runs that command. -/
theorem test_withFetchWord : after (step (State.reset.withFetchWord 64 0x01000000000000AA)) (fun t => (t.result, t.pc)) =
    some (0x00D34D34, 1) := by decide
theorem test_withFetchWord_busy :
    after (step ((sending rgbw52 1 [0x1100000000000000]).withFetchWord 64 0x1200000000000000)) (fun t => (t.result, t.pc)) =
    some (1, 1) := by decide
/-- R172, R56: bit 7 is sent first. -/
theorem test_wireBits : wireBits [0x92] = [true, false, false, true, false, false, true, false] := by decide
theorem test_observe : (List.range 9).map (enabled rgbw52 1 []).observeRegister =
    [some 1, some 1, some 1, some 14, some 0, some 1, some 0, some 0, none] := by decide

/-! ### Witnesses: for every statement with hypotheses, a state and operands that meet them together -/

/-- The bytes of one RGBW pixel's two cleared halves. -/
def smallRam : Memory := ((State.resetWith rgbw52).allocate 1).ram

/-- The invariant holds in every state that holds one cleared RGBW pixel, if it holds of the pc, STATUS and the transfer. -/
theorem inv_of_small {s : State} (hc : s.cfg = rgbw52) (hv : s.valid = true) (hn : s.n = 1) (hf : s.frameSize = 14)
    (hr : s.ram = smallRam) (hs : s.status.toNat ≤ 6) (hp : s.pc ≤ s.program.length) (ht : s.TransferInRange)
    (hi : s.TransferReadsInactiveHalf) : Inv s := by
  refine ⟨?_, ⟨?_, fun a => ?_⟩, fun _ h => ?_, fun _ h i hi k hk => ⟨0, ?_⟩, hs, hp, ht, hi⟩
  · simp only [State.RegistersAgree, State.fs, hc, hv, hn, hf, if_true]; decide
  · rw [hr]; decide
  · rw [hr, hv, smallRam, allocate_read]
    simp only [State.fs, hf]
    by_cases ha : a < 28
    · rw [if_pos (by exact ha)]; simpa using ha
    · rw [if_neg (by exact ha)]; simpa using ha
  · simp only [State.Bracketed, State.base, State.fs, hf, hr]; cases h <;> decide
  · rw [hn] at hi; rw [hc] at hk
    have hi0 : i = 0 := by have : i < 1 := hi; omega
    have hk4 : k < 4 := hk
    simp only [State.slot, State.fs, hf, hr, hc, hi0]
    cases h <;> interval_cases k <;> decide

/-- One RGBW pixel, the transport initialised and Idle. -/
def idle1 (program : List CommandWord) : State := enabled rgbw52 1 program

/-- The same with half A being sent, its first `pos` bytes read. -/
def busy1 (program : List CommandWord) (pos : Nat) : State :=
  (sending rgbw52 1 program).setTx
    (.busy { half := .a, base := 0, len := 14, pos := pos, bytes := (clearedFrame .rgbw 1).take pos })

theorem inv_idle1 (program : List CommandWord) : Inv (idle1 program) :=
  inv_of_small rfl rfl rfl rfl rfl (by decide : (0#8).toNat ≤ 6) (Nat.zero_le _) (fun _ h => Tx.noConfusion h)
    fun _ h => Tx.noConfusion h

theorem inv_busy1 (program : List CommandWord) (pos : Fin 15) : Inv (busy1 program pos) :=
  inv_of_small rfl rfl rfl rfl rfl (by decide : (0#8).toNat ≤ 6) (Nat.zero_le _)
    (fun x h => by cases h; revert pos; decide)
    fun x h _ => by
      cases h
      exact ⟨rfl, rfl, rfl, rfl, rfl,
        (by decide : ∀ p : Fin 15, Memory.readBytes smallRam 0 p = some ((clearedFrame .rgbw 1).take p)) pos⟩

theorem witness_ResetMeetsInv : ∃ c : Config, c = rgbw52 ∧ (State.resetWith c).valid = false := ⟨_, rfl, rfl⟩
theorem witness_StepKeepsInv : ∃ t, Inv (busy1 [] 13) ∧ step (busy1 [] 13) = .next t := ⟨_, inv_busy1 [] 13, rfl⟩
theorem witness_StepKeepsInv_command : ∃ t, Inv (idle1 [0x3100000000000001]) ∧ step (idle1 [0x3100000000000001]) = .next t :=
  ⟨_, inv_idle1 _, rfl⟩
theorem witness_UnviolatedStepNeverFaults : Inv (busy1 [] 14) ∧ (busy1 [] 14).faultBits = .empty ∧
    (busy1 [] 14).tx ≠ .idle ∧ Inv (idle1 []) ∧ (idle1 []).faultBits = .empty ∧ (idle1 []).nextCommand = none ∧
    (idle1 []).tx = .idle := ⟨inv_busy1 [] 14, rfl, by decide, inv_idle1 [], rfl, rfl, rfl⟩
theorem witness_DecodedWordIsItsEncoding : decode 0x20FFFF00FFFFFFFF#64 = .ok (.setpix 0xFFFF 255 255 255 255) := by decide
/-- The ends of each range of unassigned opcodes. -/
theorem witness_UnassignedOpcodeRaisesIllegal :
    (0x00FFFFFFFFFFFFFF#64 |>.extractLsb' 56 8).toNat = 0x00 ∧ (0x0400000000000000#64 |>.extractLsb' 56 8).toNat = 0x04 ∧
    (0x0F00000000000000#64 |>.extractLsb' 56 8).toNat = 0x0F ∧ (0x1400000000000000#64 |>.extractLsb' 56 8).toNat = 0x14 ∧
    (0x1F00000000000000#64 |>.extractLsb' 56 8).toNat = 0x1F ∧ (0x2200000000000000#64 |>.extractLsb' 56 8).toNat = 0x22 ∧
    (0x2F00000000000000#64 |>.extractLsb' 56 8).toNat = 0x2F ∧ (0x3200000000000000#64 |>.extractLsb' 56 8).toNat = 0x32 ∧
    (0xFF00000000000000#64 |>.extractLsb' 56 8).toNat = 0xFF := by decide
theorem witness_WordThatIsNoCommandRaisesIllegal : (∀ i, encode i ≠ 0x0000000000000000#64) ∧
    encode .teardown = 0x1300000000000000#64 := by
  refine ⟨fun i h => ?_, by decide⟩
  have h := congrArg BitVec.toNat h
  cases i <;> simp only [encode_encodeByte_toNat, encode_decodePattern_toNat, encode_pack_toNat, encode_setlen_toNat,
    encode_clear_toNat, encode_pixcnt_toNat, encode_teardown_toNat, encode_setpix_toNat, encode_setpixp_toNat,
    encode_beginTransport_toNat, encode_showFrame_toNat, BitVec.toNat_ofNat] at h <;> omega
theorem witness_AssembledWordIsTheSumOfItsFields :
    (255 < 2 ^ 8 ∧ 2 ^ 8 ≤ 256) ∧ (16777215 < 2 ^ 24 ∧ 2 ^ 24 ≤ 16777216) ∧ (65535 < 2 ^ 16 ∧ 2 ^ 16 ≤ 65536) ∧
    (4294967295 < 2 ^ 32 ∧ 2 ^ 32 ≤ 4294967296) ∧ (1 < 2 ∧ 2 ≤ 2) := by decide
theorem witness_PseudoInstructionsExpand : 65535 < 2 ^ 16 ∧ 2 ^ 16 ≤ 65536 := by decide
theorem witness_MemoryPrimitives : (∃ m, Memory.copy smallRam 14 0 14 = some m) ∧ Memory.wf smallRam ∧
    (∃ vs, Memory.readBytes smallRam 27 1 = some vs) ∧ Memory.readBytes smallRam 27 2 = none :=
  ⟨⟨_, rfl⟩, by decide, ⟨_, rfl⟩, by decide⟩

/-- A word, its command, and a state for each of the four clauses: Idle, no schedule, the head each way. -/
theorem witness_StepRunsTheDecodedCommand : decode 0x1200000000000000#64 = .ok .pixcnt ∧
    (idle1 [0x1200000000000000]).program[0]? = some 0x1200000000000000#64 ∧ (idle1 [0x1200000000000000]).tx = .idle ∧
    (busy1 [0x1200000000000000] 14).schedule = [] ∧
    (∃ x, { busy1 [0x1200000000000000] 14 with schedule := [.controller] }.tx = .busy x) ∧
    (∃ x, { busy1 [0x1200000000000000] 0 with schedule := [.transport] }.tx = .busy x) :=
  ⟨by decide, rfl, rfl, rfl, ⟨_, rfl⟩, ⟨_, rfl⟩⟩
theorem witness_StepOnIllegalWordOrNoWord : (∃ r, decode 0x3100000000000002#64 = .illegal r) ∧
    (idle1 [0x3100000000000002]).program[0]? = some 0x3100000000000002#64 ∧ (idle1 [0x3100000000000002]).tx = .idle ∧
    (busy1 [0x3100000000000002] 1).schedule = [] ∧ (idle1 []).program[0]? = none ∧ (∃ x, (busy1 [] 1).tx = .busy x) :=
  ⟨⟨.reservedField 0x31, by decide⟩, rfl, rfl, rfl, rfl, ⟨_, rfl⟩⟩
/-- An illegal word with a transfer in flight, the schedule's head each way. -/
theorem witness_StepOnIllegalWordOrNoWord_scheduled :
    (busy1 [0x3100000000000002] 1).program[0]? = some 0x3100000000000002#64 ∧
    (∃ x, { busy1 [0x3100000000000002] 1 with schedule := [.controller] }.tx = .busy x) ∧
    (∃ x, { busy1 [0x3100000000000002] 1 with schedule := [.transport] }.tx = .busy x) := ⟨rfl, ⟨_, rfl⟩, ⟨_, rfl⟩⟩
theorem witness_PcAdvancesByOnePerCommand : (∃ t, runCommand 0 (idle1 []) = .next t) ∧ ¬ (idle1 []).Held ∧
    (∃ t, runCommand 0x1300000000000000#64 (busy1 [] 2) = .next t) ∧ (busy1 [] 2).Held :=
  ⟨⟨_, rfl⟩, fun h => h.1 rfl, ⟨_, rfl⟩, by decide, rfl⟩

/-! A word of each opcode without and with a reserved bit set (the first clause of each command's statement). -/

theorem witness_EncodeReturnsThePattern : (0x01000000000000FF#64).extractLsb' 56 8 = 0x01#8 ∧
    (0x01000000000000FF#64).extractLsb' 8 48 = 0#48 ∧ (0x0100000000000100#64).extractLsb' 56 8 = 0x01#8 ∧
    (0x0100000000000100#64).extractLsb' 8 48 ≠ 0#48 := by decide
theorem witness_DecodeExtractsMiddleBits : (0x0200000000FFFFFF#64).extractLsb' 56 8 = 0x02#8 ∧
    (0x0200000000FFFFFF#64).extractLsb' 24 32 = 0#32 ∧ (0x0200000001000000#64).extractLsb' 56 8 = 0x02#8 ∧
    (0x0200000001000000#64).extractLsb' 24 32 ≠ 0#32 := by decide
theorem witness_PackArrangesTheChannels : (0x03000000FFFFFFFF#64).extractLsb' 56 8 = 0x03#8 ∧
    (0x03000000FFFFFFFF#64).extractLsb' 32 24 = 0#24 ∧ (0x0300000100000000#64).extractLsb' 56 8 = 0x03#8 ∧
    (0x0300000100000000#64).extractLsb' 32 24 ≠ 0#24 := by decide
/-- 2 RGBW pixels just fit 52 bytes, and one byte less does not; in `fault` mode also with a transfer in flight. -/
theorem witness_SetlenReallocatesAndClears : (0x100000000000FFFF#64).extractLsb' 56 8 = 0x10#8 ∧
    (0x1000000000010000#64).extractLsb' 56 8 = 0x10#8 ∧ (0x1000000000010000#64).extractLsb' 16 40 ≠ 0#40 ∧
    ¬ (idle1 []).Held ∧ 26 = (2#16).toNat * channels (idle1 []).cfg.variant * 3 + 2 ∧ 2 * 26 ≤ (idle1 []).cfg.bufCap.val ∧
    ¬ (sending { rgbw52 with bufCap := 51, contractMode := .fault } 1 []).Held ∧
    (sending { rgbw52 with bufCap := 51, contractMode := .fault } 1 []).cfg.bufCap.val < 2 * 26 :=
  ⟨by decide, by decide, by decide, fun h => h.1 rfl, by decide, by decide, fun h => (by cases h.2), by decide⟩
theorem witness_ClearResetsTheActiveSlots : (0x1100000000000000#64).extractLsb' 56 8 = 0x11#8 ∧
    (0x1180000000000000#64).extractLsb' 56 8 = 0x11#8 ∧ (0x1180000000000000#64).extractLsb' 0 56 ≠ 0#56 ∧
    (idle1 []).valid = true ∧ 0 < (idle1 []).n.toNat ∧ 3 < channels (idle1 []).cfg.variant ∧
    12 < (idle1 []).slot (idle1 []).active 0 + 12 ∧ State.reset.valid = false := by decide
theorem witness_PixcntReturnsTheCount : (0x1200000000000000#64).extractLsb' 56 8 = 0x12#8 ∧
    (0x1200000000000001#64).extractLsb' 56 8 = 0x12#8 ∧ (0x1200000000000001#64).extractLsb' 0 56 ≠ 0#56 := by decide
theorem witness_TeardownReleasesTheBuffer : (0x1300000000000000#64).extractLsb' 56 8 = 0x13#8 ∧
    (0x1300000000000001#64).extractLsb' 56 8 = 0x13#8 ∧ (0x1300000000000001#64).extractLsb' 0 56 ≠ 0#56 ∧
    ¬ (idle1 []).Held := ⟨by decide, by decide, by decide, fun h => h.1 rfl⟩
/-- Index 0 is the last pixel and index 1 the first that is none. -/
theorem witness_SetpixWritesTheSlot : (0x20FFFF00FFFFFFFF#64).extractLsb' 56 8 = 0x20#8 ∧
    (0x2000000100000000#64).extractLsb' 56 8 = 0x20#8 ∧ (0x2000000100000000#64).extractLsb' 32 8 ≠ 0#8 ∧
    (idle1 []).n.toNat ≤ (1#16).toNat ∧ (0#16).toNat < (idle1 []).n.toNat := by decide
theorem witness_SetpixpWritesTheUnpackedColour : (0x21FFFF00FFFFFFFF#64).extractLsb' 56 8 = 0x21#8 ∧
    (0x2100008000000000#64).extractLsb' 56 8 = 0x21#8 ∧ (0x2100008000000000#64).extractLsb' 32 8 ≠ 0#8 ∧
    (idle1 []).n.toNat ≤ (1#16).toNat ∧ (0#16).toNat < (idle1 []).n.toNat := by decide
theorem witness_PackedAndExplicitChannelsMatch : ∃ t, exec (.pack 1 2 3 4) (idle1 []) = .next t := ⟨_, rfl⟩
theorem witness_PixelCommandsKeepTheInactiveHalf : Inv (idle1 []) ∧ (idle1 []).valid = true ∧
    (∃ t, exec .clear (idle1 []) = .next t) ∧ (∃ t, exec (.setpix 0 1 2 3 4) (idle1 []) = .next t) ∧
    (∃ t, exec (.setpixp 1 0) (idle1 []) = .next t) := ⟨inv_idle1 [], rfl, ⟨_, rfl⟩, ⟨_, rfl⟩, ⟨_, rfl⟩⟩
theorem witness_BeginInitialisesTheTransportOnce : (0x3000000000000000#64).extractLsb' 56 8 = 0x30#8 ∧
    (0x3000000000000001#64).extractLsb' 56 8 = 0x30#8 ∧ (0x3000000000000001#64).extractLsb' 0 56 ≠ 0#56 ∧
    State.reset.begun = false ∧ (idle1 []).begun = true := by decide
theorem witness_ShowReportsTheFirstError : (0x3100000000000001#64).extractLsb' 56 8 = 0x31#8 ∧
    (0x3100000000000001#64).extractLsb' 1 55 = 0#55 ∧ (0x3100000000000002#64).extractLsb' 56 8 = 0x31#8 ∧
    (0x3100000000000002#64).extractLsb' 1 55 ≠ 0#55 ∧ State.reset.begun = false ∧
    { State.reset with begun := true }.begun = true ∧ { State.reset with begun := true }.valid = false := by decide
theorem witness_ShowSendsAndFlips : (idle1 []).begun = true ∧ (idle1 []).valid = true ∧ ¬ (idle1 []).Held :=
  ⟨rfl, rfl, fun h => h.1 rfl⟩
/-- In `fault` mode, with a transfer in flight. -/
theorem witness_ShowSendsAndFlips_violated : (sending (rgb58 .fault) 3 []).begun = true ∧
    (sending (rgb58 .fault) 3 []).valid = true ∧ ¬ (sending (rgb58 .fault) 3 []).Held := ⟨rfl, rfl, fun h => by cases h.2⟩
theorem witness_ShowCloneCopiesTheSentHalf : ∃ bytes, (idle1 []).begun = true ∧ (idle1 []).valid = true ∧ ¬ (idle1 []).Held ∧
    Memory.readBytes (idle1 []).ram ((idle1 []).base (idle1 []).active) (idle1 []).fs = some bytes :=
  ⟨_, rfl, rfl, fun h => h.1 rfl, rfl⟩
theorem witness_CloneMakesTheHalvesEqual : Inv (idle1 []) ∧ (idle1 []).begun = true ∧ (idle1 []).valid = true ∧
    ¬ (idle1 []).Held := ⟨inv_idle1 [], rfl, rfl, fun h => h.1 rfl⟩
/-- A run with one accepted SHOW: the count is 1. -/
theorem witness_ActiveHalfAlternates : (idle1 [0x3100000000000000]).active = .a ∧
    (∃ t, core.run 2 (idle1 [0x3100000000000000]) = .next t) ∧ showsAfter 2 (idle1 [0x3100000000000000]) 0 = 1 :=
  ⟨rfl, ⟨_, rfl⟩, by decide⟩
theorem witness_HostDutyHoldsTheCommand : (busy1 [] 0).Held ∧ restriction (.showFrame true) = some .showFrame ∧
    (busy1 [] 0).begun = true ∧ (busy1 [] 0).valid = true ∧ restriction (.setlen 0) = some .setlen ∧
    restriction .teardown = some .teardown ∧ ∃ t, exec .teardown (busy1 [] 0) = .next t :=
  ⟨⟨by decide, rfl⟩, rfl, rfl, rfl, rfl, rfl, ⟨_, rfl⟩⟩
/-- RGB, 3 pixels being sent, in `fault` mode. -/
def busyFault : State := sending (rgb58 .fault) 3 []
theorem witness_FaultModeRecordsAndProceeds : (∃ x, busyFault.tx = .busy x) ∧ busyFault.cfg.contractMode = .fault ∧
    restriction (.showFrame true) = some .showFrame ∧ busyFault.begun = true ∧ busyFault.valid = true ∧
    (∃ t, exec (.showFrame true) { busyFault with tx := .idle } = .next t) ∧
    (∃ t, exec (.setlen 9) { busyFault with tx := .idle } = .next t) ∧
    (∃ t, exec .teardown { busyFault with tx := .idle } = .next t) :=
  ⟨⟨_, rfl⟩, rfl, rfl, rfl, rfl, ⟨_, rfl⟩, ⟨_, rfl⟩, ⟨_, rfl⟩⟩
/-- The violating TEARDOWN of P4's kind: one bit is set, and every bit set before stays. -/
theorem witness_ConfigurationFixedAndFaultBitsKept :
    (∃ t, step { busyFault with program := [0x1300000000000000], faultBits := ⟨true, true, false⟩ } = .next t ∧
      t.faultBits = ⟨true, true, true⟩) ∧
    (∃ t, step (busy1 [] 0) = .next t ∧ (busy1 [] 0).cfg.contractMode = .hostDuty) := ⟨⟨_, rfl, rfl⟩, ⟨_, rfl, rfl⟩⟩
theorem witness_UnrestrictedCommandsAreNoHazard : Inv (busy1 [] 7) ∧ (busy1 [] 7).faultBits = .empty ∧
    (∃ x, (busy1 [] 7).tx = .busy x ∧ x.base.toNat ≤ 13 ∧ 13 < x.base.toNat + x.len.toNat) ∧ restriction .clear = none :=
  ⟨inv_busy1 [] 7, rfl, ⟨_, rfl, by decide, by decide⟩, rfl⟩
theorem witness_TransportReadsOneByte : (idle1 []).tx = .idle ∧
    ∃ x v, (busy1 [] 13).tx = .busy x ∧ x.pos < x.len.toNat ∧
      Memory.read (busy1 [] 13).ram (x.base.toNat + x.pos) = some v := ⟨rfl, _, _, rfl, by decide, rfl⟩
theorem witness_TransportReadsOneByte_end : ∃ x, (busy1 [] 14).tx = .busy x ∧ x.pos = x.len.toNat := ⟨_, rfl, by decide⟩
/-- After a violating TEARDOWN the old transfer goes on and finds no byte. -/
theorem witness_UnallocatedReadFaults : ∃ t x, exec .teardown busyFault = .next t ∧ t.tx = .busy x ∧ x.pos < x.len.toNat ∧
    Memory.read t.ram (x.base.toNat + x.pos) = none := ⟨_, _, rfl, rfl, by decide, rfl⟩
theorem witness_TransferEndsWithADraw : ∃ x, (busy1 [] 14).tx = .busy x ∧ x.pos = x.len.toNat := ⟨_, rfl, by decide⟩
/-- A given outcome, and none left. -/
theorem witness_OutcomeIsTheNextInput : (∃ x, (busy1 [] 14).tx = .busy x ∧ x.pos = x.len.toNat) ∧
    { busy1 [] 14 with draws := [.fail 5] }.draws = [.fail 5] ∧ (busy1 [] 14).draws = [] := ⟨⟨_, rfl, by decide⟩, rfl, rfl⟩
theorem witness_WireFrameIsTheSnapshot : Inv (idle1 []) ∧ ¬ (idle1 []).Held ∧
    (∃ t, exec (.showFrame true) (idle1 []) = .next t ∧ t.status = 0) ∧
    Inv (busy1 [] 14) ∧ (busy1 [] 14).Sending .a (clearedFrame .rgbw 1) ∧
    ∃ t, step (busy1 [] 14) = .next t ∧ t.faultBits = .empty :=
  ⟨inv_idle1 [], fun h => h.1 rfl, ⟨_, rfl, rfl⟩, inv_busy1 [] 14, ⟨_, rfl, rfl, rfl, by decide⟩, _, rfl, rfl⟩
theorem witness_FrameOnTheLine : Inv (idle1 []) ∧ (idle1 []).valid = true ∧ 0 < (idle1 []).n.toNat ∧
    3 < channels (idle1 []).cfg.variant := ⟨inv_idle1 [], rfl, by decide, by decide⟩
/-- No command left, and a held TEARDOWN. -/
theorem witness_HeldTransferEnds : Inv (busy1 [] 0) ∧ (busy1 [] 0).faultBits = .empty ∧
    (busy1 [] 0).cfg.contractMode = .hostDuty ∧ (∃ x, (busy1 [] 0).tx = .busy x) ∧ (busy1 [] 0).nextCommand = none ∧
    Inv (busy1 [0x1300000000000000] 14) ∧
    (busy1 [0x1300000000000000] 14).nextCommand = some 0x1300000000000000#64 ∧
    decode 0x1300000000000000#64 = .ok .teardown ∧ restriction .teardown = some .teardown :=
  ⟨inv_busy1 [] 0, rfl, rfl, ⟨_, rfl⟩, rfl, inv_busy1 _ 14, rfl, by decide, rfl⟩
theorem witness_DrawsNeverReachTheBlock : ∃ t, core.run 2 { busy1 [] 13 with draws := [.ok] } = .next t := ⟨_, rfl⟩
/-- One byte left, and CLEAR still to come: the Controller first, and the Transport first. -/
theorem witness_ScheduleNeverShows : Inv (busy1 [0x1100000000000000] 13) ∧
    (busy1 [0x1100000000000000] 13).faultBits = .empty ∧
    (busy1 [0x1100000000000000] 13).cfg.contractMode = .hostDuty ∧
    (∃ t, core.run 3 (busy1 [0x1100000000000000] 13) = .next t ∧ t.nextCommand = none ∧ t.tx = .idle) ∧
    (∃ t, core.run 3 { busy1 [0x1100000000000000] 13 with schedule := [.transport, .transport] } = .next t ∧
      t.nextCommand = none ∧ t.tx = .idle) :=
  ⟨inv_busy1 _ 13, rfl, rfl, ⟨_, rfl, rfl, rfl⟩, ⟨_, rfl, rfl, rfl⟩⟩
/-- Steps that change the buffer registers, ACTIVE, BEGUN and RESULT. -/
theorem witness_OnlyTheListedCommandsWriteARegister :
    (∃ t, step (idle1 [0x1000000000000002]) = .next t ∧ t.n ≠ (idle1 [0x1000000000000002]).n) ∧
    (∃ t, step (idle1 [0x3100000000000000]) = .next t ∧ t.active ≠ (idle1 [0x3100000000000000]).active) ∧
    (∃ t, step (idle1 [0x1300000000000000]) = .next t ∧ t.begun ≠ (idle1 [0x1300000000000000]).begun) ∧
    (∃ t, step (idle1 [0x1200000000000000]) = .next t ∧ t.result ≠ (idle1 [0x1200000000000000]).result) :=
  ⟨⟨_, rfl, by decide⟩, ⟨_, rfl, by decide⟩, ⟨_, rfl, by decide⟩, ⟨_, rfl, by decide⟩⟩
theorem witness_StatusCodesByCommand :
    (∃ t, step (busy1 [] 0) = .next t ∧ t.pc = (busy1 [] 0).pc) ∧
    (∃ t, step (idle1 [0x2000010000000000]) = .next t ∧ t.pc = (idle1 [0x2000010000000000]).pc + 1 ∧ t.status = 1) :=
  ⟨⟨_, rfl, rfl⟩, ⟨_, rfl, rfl, by decide⟩⟩
theorem witness_HistoryOnlyGrows : ∃ t, step (busy1 [] 14) = .next t := ⟨_, rfl⟩
theorem witness_RepeatedCommandsAreIdempotent : Inv (idle1 []) ∧ (idle1 []).tx = .idle ∧ (∀ c, Instr.setlen 2 ≠ .showFrame c) ∧
    ∃ t u, exec (.setlen 2) (idle1 []) = .next t ∧ exec (.setlen 2) t = .next u :=
  ⟨inv_idle1 [], rfl, fun _ => by simp, _, _, rfl, rfl⟩

end Sys2Proof.Tests
end

section
/-! The buffer RAM primitives of R13, and where a transfer's outcome comes from (R11, R171). -/

namespace Sys2Proof.Machine

/-! ### The byte order of a stored value -/

@[simp] theorem bigEndian_length (n : Nat) (v : BitVec (8 * n)) : (bigEndian n v).length = n := by
  simp [bigEndian]

@[simp] theorem bigEndian_getElem (n : Nat) (v : BitVec (8 * n)) (j : Nat) (hj : j < (bigEndian n v).length) :
    (bigEndian n v)[j] = v.extractLsb' (8 * (n - 1 - j)) 8 := by
  simp [bigEndian]

/-! ### `MemWrite`, `MemRead` and `Copy` -/

theorem Memory.read_memWrite_inside (m : Memory) (a : Nat) {n j : Nat} (v : BitVec (8 * n)) (hj : j < n) :
    Memory.read (Memory.memWrite m a n v) (a + j) = some (v.extractLsb' (8 * (n - j) - 8) 8) := by
  have hlen : j < (bigEndian n v).length := by simpa using hj
  have hoff : 8 * (n - 1 - j) = 8 * (n - j) - 8 := by omega
  rw [Memory.memWrite, Memory.read_writeBytes_inside hlen, bigEndian_getElem, hoff]

theorem Memory.read_memWrite_outside (m : Memory) {a n x : Nat} (v : BitVec (8 * n)) (hx : x < a ∨ a + n ≤ x) :
    Memory.read (Memory.memWrite m a n v) x = Memory.read m x :=
  Memory.read_writeBytes_outside (by rwa [bigEndian_length])

theorem Memory.readBytes_eq_some_iff (m : Memory) (a n : Nat) (vs : List Byte) :
    Memory.readBytes m a n = some vs ↔
      vs.length = n ∧ ∀ j v, vs[j]? = some v → Memory.read m (a + j) = some v := by
  constructor
  · intro h
    have hlen := Memory.length_of_readBytes h
    refine ⟨hlen, fun j v hv => ?_⟩
    have hj : j < n := hlen ▸ (List.getElem?_eq_some_iff.mp hv).1
    rw [Memory.read_of_readBytes h hj, hv]
  · rintro ⟨hlen, hread⟩
    refine Memory.readBytes_of_reads hlen fun j hj => ?_
    have hget : vs[j]? = some vs[j] := List.getElem?_eq_getElem (hlen ▸ hj)
    rw [hget, hread j _ hget]

/-- A copy is the bytes read from the source, all of them before the write (R13). -/
theorem Memory.copy_eq_some_iff (m m' : Memory) (dst src n : Nat) :
    Memory.copy m dst src n = some m' ↔
      ∃ vs, Memory.readBytes m src n = some vs ∧ m' = Memory.writeBytes m dst vs := by
  cases h : Memory.readBytes m src n <;> simp [Memory.copy, h, eq_comm]

theorem Memory.read_copy_inside {m m' : Memory} {dst src n j : Nat} (h : Memory.copy m dst src n = some m') (hj : j < n) :
    Memory.read m' (dst + j) = Memory.read m (src + j) := by
  obtain ⟨vs, hvs, rfl⟩ := (Memory.copy_eq_some_iff ..).mp h
  have hlen : j < vs.length := by rwa [Memory.length_of_readBytes hvs]
  rw [Memory.read_writeBytes_inside hlen, Memory.read_of_readBytes hvs hj, List.getElem?_eq_getElem hlen]

theorem Memory.read_copy_outside {m m' : Memory} {dst src n x : Nat} (h : Memory.copy m dst src n = some m')
    (hx : x < dst ∨ dst + n ≤ x) : Memory.read m' x = Memory.read m x := by
  obtain ⟨vs, hvs, rfl⟩ := (Memory.copy_eq_some_iff ..).mp h
  exact Memory.read_writeBytes_outside (by rwa [Memory.length_of_readBytes hvs])

/-- Settles O13: a read sees the bytes last written at its address, and a copy writes the list it has read before. -/
theorem memoryPrimitives : Obligations.MemoryPrimitives := by
  refine ⟨fun m a n v => ⟨fun j hj => ?_, fun x hx => ?_, fun hwf => ?_⟩, Memory.readBytes_eq_some_iff,
    fun m m' dst src n h => ⟨fun j hj => ?_, fun x hx => ?_, fun hwf => ?_⟩, ?_⟩
  · exact Memory.read_memWrite_inside m a v hj
  · exact Memory.read_memWrite_outside m v hx
  · exact Memory.writeBytes_wf a _ hwf
  · exact Memory.read_copy_inside h hj
  · exact Memory.read_copy_outside h hx
  · exact Memory.copy_wf hwf h
  · rintro m dst src n ⟨vs, hvs⟩
    exact ⟨_, (Memory.copy_eq_some_iff ..).mpr ⟨vs, hvs, rfl⟩⟩

/-! ### The outcome of a transfer -/

theorem State.nextDraw_of_cons {s : State} {d : Draw} {rest : List Draw} (h : s.draws = d :: rest) : s.nextDraw = d := by
  simp [State.nextDraw, h]

theorem State.nextDraw_of_nil {s : State} (h : s.draws = []) : s.nextDraw = Config.freeDraw s.drawCount := by
  simp [State.nextDraw, h]

theorem State.dropDraw_of_cons {s : State} {d : Draw} {rest : List Draw} (h : s.draws = d :: rest) :
    s.dropDraw = { s with draws := rest } := by
  simp [State.dropDraw, h]

theorem State.dropDraw_of_nil {s : State} (h : s.draws = []) : s.dropDraw = { s with drawCount := s.drawCount + 1 } := by
  simp [State.dropDraw, h]

/-- A transport step with no byte left to read ends the transfer (R171). -/
theorem transportStep_of_ended {s : State} {x : Transfer} (htx : s.tx = .busy x) (hpos : x.len.toNat ≤ x.pos) :
    transportStep s = .next ((s.dropDraw.emit (wireFrameOf x s.nextDraw)).setTx .idle) := by
  simp [transportStep, endStep, htx, Nat.not_lt.mpr hpos]

/-- Settles O44, by the two cases of the list of given outcomes: one is left, or none. -/
theorem outcomeIsTheNextInput : Obligations.OutcomeIsTheNextInput := by
  intro s x htx hpos
  have hend := transportStep_of_ended htx hpos.ge
  constructor
  · intro d rest hdraws
    rw [hend, State.dropDraw_of_cons hdraws, State.nextDraw_of_cons hdraws]
    rfl
  · intro hdraws
    rw [hend, State.dropDraw_of_nil hdraws, State.nextDraw_of_nil hdraws]
    rfl

end Sys2Proof.Machine
end

section
/-! The state rules of spec/10_state.md over single steps: whose step it is, what a completed command leaves, and the
invariant. -/

namespace Sys2Proof.Machine

/-! ### Whose step it is (R168, R169) -/

theorem step_of_idle {s : State} {w : CommandWord} (hw : s.nextCommand = some w) (htx : s.tx = .idle) :
    step s = runCommand w s := by
  simp [step, State.nextMove, hw, htx]

theorem step_of_schedule_nil {s : State} {w : CommandWord} (hw : s.nextCommand = some w) (hs : s.schedule = []) :
    step s = runCommand w s := by
  cases htx : s.tx <;> simp [step, State.nextMove, hw, htx, hs]

theorem step_of_controller_head {s : State} {w : CommandWord} {x : Transfer} {rest : List Agent}
    (hw : s.nextCommand = some w) (htx : s.tx = .busy x) (hs : s.schedule = .controller :: rest) :
    step s = runCommand w { s with schedule := rest } := by
  simp [step, State.nextMove, hw, htx, hs]

theorem step_of_transport_head {s : State} {w : CommandWord} {x : Transfer} {rest : List Agent}
    (hw : s.nextCommand = some w) (htx : s.tx = .busy x) (hs : s.schedule = .transport :: rest) :
    step s = transportStep { s with schedule := rest } := by
  simp [step, State.nextMove, hw, htx, hs]

theorem step_of_no_command_busy {s : State} {x : Transfer} (hw : s.nextCommand = none) (htx : s.tx = .busy x) :
    step s = transportStep s := by
  simp [step, State.nextMove, hw, htx]

theorem step_of_no_command_idle {s : State} (hw : s.nextCommand = none) (htx : s.tx = .idle) :
    step s = .refused .noStep := by
  simp [step, State.nextMove, hw, htx]

/-- Settles O14, by the equation of a step for each case of who moves. -/
theorem stepRunsTheDecodedCommand : Obligations.StepRunsTheDecodedCommand := by
  intro s w i hw hi
  refine ⟨fun htx => ?_, fun hs => ?_, fun x rest htx hs => ?_, fun x rest htx hs => ?_⟩
  · rw [step_of_idle hw htx, runCommand_of_ok hi]
  · rw [step_of_schedule_nil hw hs, runCommand_of_ok hi]
  · rw [step_of_controller_head hw htx hs, runCommand_of_ok hi]
  · exact step_of_transport_head hw htx hs

/-- Settles O15, by the same equations, and those of a host with no command left. -/
theorem stepOnIllegalWordOrNoWord : Obligations.StepOnIllegalWordOrNoWord := by
  refine ⟨fun s w r hw hr => ⟨fun htx => ?_, fun hs => ?_, fun x rest htx hs => ?_, fun x rest htx hs => ?_⟩,
    fun s hw => ⟨fun x htx => ?_, fun htx => ?_⟩⟩
  · rw [step_of_idle hw htx, runCommand_of_illegal hr]
  · rw [step_of_schedule_nil hw hs, runCommand_of_illegal hr]
  · rw [step_of_controller_head hw htx hs, runCommand_of_illegal hr]
  · exact step_of_transport_head hw htx hs
  · exact step_of_no_command_busy hw htx
  · exact step_of_no_command_idle hw htx

/-- Settles O42: with bytes left to read, the Transport's step is the read, which finds no value. -/
theorem unallocatedReadFaults : Obligations.UnallocatedReadFaults := by
  intro s x htx hpos hnone
  have hread : transportStep s = readStep x s := by simp [transportStep, htx, hpos]
  simp [hread, readStep, hnone]

/-! ### What a completed command leaves -/

/-- What each command can leave when it completes: one constructor per outcome of its rule. The restricted commands (R215)
complete only where the contract does not hold them, in the state with the violation recorded. -/
inductive Completes (s : State) : Instr → State → Prop where
  | encodeByte (v : Byte) :
      Completes s (.encodeByte v) { s with result := (lut v).setWidth 32, status := 0, pc := s.pc + 1 }
  | decodePattern (p : Pattern) :
      Completes s (.decodePattern p)
        { s with result := (dec p).setWidth 32, status := statusCode (patternStatus (isCodeword p)), pc := s.pc + 1 }
  | pack (r g b w : Byte) :
      Completes s (.pack r g b w) { s with result := packColor s.cfg.variant r g b w, status := 0, pc := s.pc + 1 }
  | pixcnt : Completes s .pixcnt { s with result := s.n.setWidth 32, status := 0, pc := s.pc + 1 }
  | clearDisabled : s.valid = false → Completes s .clear { s with status := 0, pc := s.pc + 1 }
  | clear : s.valid = true →
      Completes s .clear { s with
        ram := Memory.writeBytes s.ram (s.slot s.active 0) (clearedSlots s.cfg.variant s.n.toNat)
        status := 0, pc := s.pc + 1 }
  | setpixIndex {idx : Count} (r g b w : Byte) : s.n.toNat ≤ idx.toNat →
      Completes s (.setpix idx r g b w) { s with status := 1, pc := s.pc + 1 }
  | setpix {idx : Count} (r g b w : Byte) : idx.toNat < s.n.toNat →
      Completes s (.setpix idx r g b w) { s with
        ram := Memory.writeBytes s.ram (s.slot s.active idx.toNat) (slotBytes s.cfg.variant r g b w)
        status := 0, pc := s.pc + 1 }
  | setpixpIndex {idx : Count} (col : Word32) : s.n.toNat ≤ idx.toNat →
      Completes s (.setpixp idx col) { s with status := 1, pc := s.pc + 1 }
  | setpixp {idx : Count} (col : Word32) : idx.toNat < s.n.toNat →
      Completes s (.setpixp idx col) { s with
        ram := Memory.writeBytes s.ram (s.slot s.active idx.toNat)
          (slotBytes s.cfg.variant (colR col) (colG col) (colB col) (colW col))
        status := 0, pc := s.pc + 1 }
  | beginAgain : s.begun = true → Completes s .beginTransport { s with status := 0, pc := s.pc + 1 }
  | beginFirst : s.begun = false →
      Completes s .beginTransport
        { s with begun := true, events := s.events ++ [.transportInit], status := 0, pc := s.pc + 1 }
  | setlen {n : Count} : ¬ s.Held → 2 * frameBytes s.cfg.variant n.toNat ≤ s.cfg.bufCap.val →
      Completes s (.setlen n) { (s.checked .setlen).release.allocate n with status := 0, pc := s.pc + 1 }
  | setlenAlloc {n : Count} : ¬ s.Held → s.cfg.bufCap.val < 2 * frameBytes s.cfg.variant n.toNat →
      Completes s (.setlen n) { (s.checked .setlen).release with status := 2, pc := s.pc + 1 }
  | teardown : ¬ s.Held →
      Completes s .teardown { (s.checked .teardown).release with begun := false, status := 0, pc := s.pc + 1 }
  | showNotBegun (clone : Bool) : s.begun = false → Completes s (.showFrame clone) { s with status := 4, pc := s.pc + 1 }
  | showDisabled (clone : Bool) : s.begun = true → s.valid = false →
      Completes s (.showFrame clone) { s with status := 5, pc := s.pc + 1 }
  | showFrame {clone : Bool} {m : Memory} : ¬ s.Held → s.begun = true → s.valid = true →
      (clone = false ∧ m = s.ram ∨
       clone = true ∧ Memory.copy s.ram (s.base s.active.other) (s.base s.active) s.fs = some m) →
      Completes s (.showFrame clone) { s.checked .showFrame with
        active := s.active.other
        tx := .busy { half := s.active, base := BitVec.ofNat 21 (s.base s.active), len := s.frameSize, pos := 0, bytes := [] }
        events := s.events ++ [.transferStart (BitVec.ofNat 21 (s.base s.active)) s.frameSize]
        ram := m, status := 0, pc := s.pc + 1 }

/-- A command that goes on either was held, and the step was the Transport's, or completed. -/
theorem exec_next_completes {i : Instr} {s t : State} (h : exec i s = .next t) :
    (s.Held ∧ transportStep s = .next t) ∨ Completes s i t := by
  cases i with
  | encodeByte v => cases h; exact .inr (.encodeByte v)
  | decodePattern p => cases h; exact .inr (.decodePattern p)
  | pack r g b w => cases h; exact .inr (.pack r g b w)
  | pixcnt => cases h; exact .inr .pixcnt
  | clear =>
    obtain ⟨hv, rfl⟩ | ⟨hv, rfl⟩ := execClear_next h
    · exact .inr (.clearDisabled hv)
    · exact .inr (.clear hv)
  | setpix idx r g b w =>
    obtain ⟨hidx, rfl⟩ | ⟨hidx, rfl⟩ := setPixel_next h
    · exact .inr (.setpixIndex r g b w hidx)
    · exact .inr (.setpix r g b w hidx)
  | setpixp idx col =>
    obtain ⟨hidx, rfl⟩ | ⟨hidx, rfl⟩ := setPixel_next h
    · exact .inr (.setpixpIndex col hidx)
    · exact .inr (.setpixp col hidx)
  | beginTransport =>
    obtain ⟨hb, rfl⟩ | ⟨hb, rfl⟩ := execBeginTransport_next h
    · exact .inr (.beginAgain hb)
    · exact .inr (.beginFirst hb)
  | setlen n =>
    by_cases hh : s.Held
    · exact .inl ⟨hh, by rwa [exec_of_held hh (op := .setlen) rfl (by simp)] at h⟩
    · obtain ⟨hc, rfl⟩ | ⟨hc, rfl⟩ := execSetlen_next hh h
      · exact .inr (.setlen hh hc)
      · exact .inr (.setlenAlloc hh hc)
  | teardown =>
    by_cases hh : s.Held
    · exact .inl ⟨hh, by rwa [exec_of_held hh (op := .teardown) rfl (by simp)] at h⟩
    · cases execTeardown_next hh h; exact .inr (.teardown hh)
  | showFrame c =>
    by_cases hh : s.Held
    · obtain ⟨hb, rfl⟩ | ⟨hb, hv, rfl⟩ | ⟨-, -, h⟩ := execShowFrame_of_held hh h
      · exact .inr (.showNotBegun c hb)
      · exact .inr (.showDisabled c hb hv)
      · exact .inl ⟨hh, h⟩
    · obtain ⟨hb, rfl⟩ | ⟨hb, hv, rfl⟩ | ⟨hb, hv, m, rfl, hm⟩ := execShowFrame_next hh h
      · exact .inr (.showNotBegun c hb)
      · exact .inr (.showDisabled c hb hv)
      · exact .inr (.showFrame hh hb hv hm)

/-- The pc moves on by 1, and the configuration and the host's sequence stay. -/
theorem Completes.frame {s t : State} {i : Instr} (h : Completes s i t) :
    t.pc = s.pc + 1 ∧ t.cfg = s.cfg ∧ t.program = s.program := by
  cases h <;> simp

/-- The buffer's registers are SETLEN's and TEARDOWN's (R23 to R25). -/
theorem Completes.buffer_registers {s t : State} {i : Instr} (h : Completes s i t) :
    (t.valid = s.valid ∧ t.n = s.n ∧ t.frameSize = s.frameSize) ∨ (∃ n, i = .setlen n) ∨ i = .teardown := by
  cases h <;> simp

/-- ACTIVE is SETLEN's, TEARDOWN's and an accepted SHOW's, which flips it (R26). -/
theorem Completes.active {s t : State} {i : Instr} (h : Completes s i t) :
    t.active = s.active ∨ (∃ n, i = .setlen n) ∨ i = .teardown ∨
      ∃ c, i = .showFrame c ∧ t.status = 0 ∧ t.active = s.active.other := by
  cases h <;> simp

/-- BEGUN is set by BEGIN and cleared by TEARDOWN (R27). -/
theorem Completes.begun {s t : State} {i : Instr} (h : Completes s i t) :
    t.begun = s.begun ∨ (i = .beginTransport ∧ t.begun = true) ∨ (i = .teardown ∧ t.begun = false) := by
  cases h <;> simp

/-- RESULT is written by the four commands that return a value (R29). -/
theorem Completes.result {s t : State} {i : Instr} (h : Completes s i t) :
    t.result = s.result ∨ (∃ v, i = .encodeByte v) ∨ (∃ p, i = .decodePattern p) ∨
      (∃ r g b x, i = .pack r g b x) ∨ i = .pixcnt := by
  cases h <;> simp

/-- At most one event is appended to the history (R33). -/
theorem Completes.events {s t : State} {i : Instr} (h : Completes s i t) :
    t.events = s.events ∨ ∃ e, t.events = s.events ++ [e] := by
  cases h <;> simp

theorem State.checked_faultBits {s : State} (hh : ¬ s.Held) (op : ContractOp) :
    (s.checked op).faultBits = s.faultBits ∨
      (s.cfg.contractMode = .fault ∧ (s.checked op).faultBits = s.faultBits.add op) := by
  by_cases htx : s.tx = .idle
  · exact .inl (by rw [State.checked_of_idle htx])
  · have hmode : s.cfg.contractMode = .fault := by
      cases hm : s.cfg.contractMode with
      | hostDuty => exact absurd ⟨htx, hm⟩ hh
      | fault => rfl
    exact .inr ⟨hmode, by simp [State.checked, htx]⟩

/-- FAULT gains at most one bit, and only under `fault` (R34, R215). -/
theorem Completes.faultBits {s t : State} {i : Instr} (h : Completes s i t) :
    t.faultBits = s.faultBits ∨ (s.cfg.contractMode = .fault ∧ ∃ op, t.faultBits = s.faultBits.add op) := by
  have hchecked (hh : ¬ s.Held) (op : ContractOp) : (s.checked op).faultBits = s.faultBits ∨
      (s.cfg.contractMode = .fault ∧ ∃ op', (s.checked op).faultBits = s.faultBits.add op') :=
    (State.checked_faultBits hh op).imp_right fun ⟨hm, ha⟩ => ⟨hm, op, ha⟩
  cases h with
  | setlen hh _ => exact hchecked hh .setlen
  | setlenAlloc hh _ => exact hchecked hh .setlen
  | teardown hh => exact hchecked hh .teardown
  | showFrame hh _ _ _ => exact hchecked hh .showFrame
  | _ => exact .inl rfl

/-- STATUS is one of the codes 0 to 6, each for the cause of R190's table. -/
theorem Completes.status {s t : State} {i : Instr} (h : Completes s i t) :
    t.status = 0 ∨
    (t.status = 1 ∧ ∃ idx : Count, s.n.toNat ≤ idx.toNat ∧
      ((∃ r g b x, i = .setpix idx r g b x) ∨ ∃ c, i = .setpixp idx c)) ∨
    (t.status = 2 ∧ ∃ n, i = .setlen n ∧ s.cfg.bufCap.val < 2 * frameBytes s.cfg.variant n.toNat) ∨
    (t.status = 4 ∧ s.begun = false ∧ ∃ c, i = .showFrame c) ∨
    (t.status = 5 ∧ s.valid = false ∧ ∃ c, i = .showFrame c) ∨
    (t.status = 6 ∧ ∃ p, i = .decodePattern p ∧ isCodeword p = false) := by
  cases h with
  | decodePattern p =>
    cases hp : isCodeword p with
    | true => exact .inl rfl
    | false => exact .inr (.inr (.inr (.inr (.inr ⟨rfl, p, rfl, hp⟩))))
  | setpixIndex r g b w hidx => exact .inr (.inl ⟨rfl, _, hidx, .inl ⟨r, g, b, w, rfl⟩⟩)
  | setpixpIndex col hidx => exact .inr (.inl ⟨rfl, _, hidx, .inr ⟨col, rfl⟩⟩)
  | setlenAlloc _ hc => exact .inr (.inr (.inl ⟨rfl, _, rfl, hc⟩))
  | showNotBegun c hb => exact .inr (.inr (.inr (.inl ⟨rfl, hb, c, rfl⟩)))
  | showDisabled c _ hv => exact .inr (.inr (.inr (.inr (.inl ⟨rfl, hv, c, rfl⟩))))
  | _ => exact .inl rfl

theorem Completes.status_le {s t : State} {i : Instr} (h : Completes s i t) : t.status.toNat ≤ 6 := by
  obtain h | ⟨h, -⟩ | ⟨h, -⟩ | ⟨h, -⟩ | ⟨h, -⟩ | ⟨h, -⟩ := h.status <;> rw [h] <;> decide

/-! ### What a step that goes on is -/

/-- A step that goes on is the Transport's, an illegal word's, or a completed command's, from the state with the schedule's head
used up where it was asked. -/
theorem step_next_cases {s t : State} (h : step s = .next t) :
    ∃ rest, transportStep { s with schedule := rest } = .next t ∨
      ∃ w, s.nextCommand = some w ∧
        ((∃ r, decode w = .illegal r ∧ t = { s with schedule := rest, status := 3, pc := s.pc + 1 }) ∨
         ∃ i, decode w = .ok i ∧ Completes { s with schedule := rest } i t) := by
  obtain ⟨rest, ⟨w, hw, hrun⟩ | htr⟩ := step_next h
  · refine ⟨rest, ?_⟩
    cases hd : decode w with
    | illegal r =>
      rw [runCommand_of_illegal hd] at hrun
      cases hrun
      exact .inr ⟨w, hw, .inl ⟨r, hd, rfl⟩⟩
    | ok i =>
      rw [runCommand_of_ok hd] at hrun
      obtain ⟨-, htr⟩ | hc := exec_next_completes hrun
      · exact .inl htr
      · exact .inr ⟨w, hw, .inr ⟨i, hd, hc⟩⟩
  · exact ⟨rest, .inl htr⟩

/-- A Transport step appends at most the event of the transfer's end (R33, R171). -/
theorem transportStep_events {s t : State} (h : transportStep s = .next t) :
    t.events = s.events ∨ ∃ e, t.events = s.events ++ [e] := by
  obtain ⟨x, -, ⟨-, v, -, rfl⟩ | ⟨-, rfl⟩⟩ := transportStep_next h
  · exact .inl rfl
  · exact .inr ⟨wireFrameOf x s.nextDraw, by simp⟩

/-- Settles O52, by the three kinds of a step that goes on. -/
theorem historyOnlyGrows : Obligations.HistoryOnlyGrows := by
  intro s t h
  obtain ⟨rest, htr | ⟨w, -, ⟨r, -, rfl⟩ | ⟨i, -, hc⟩⟩⟩ := step_next_cases h
  · have hev := transportStep_events htr
    exact hev
  · exact .inl rfl
  · exact hc.events

/-- Settles O16: a word that goes on completes and moves the pc on by 1, or is a held command, whose step the Transport's is. -/
theorem pcAdvancesByOnePerCommand : Obligations.PcAdvancesByOnePerCommand := by
  intro w s t h
  cases hd : decode w with
  | illegal r =>
    rw [runCommand_of_illegal hd] at h
    cases h
    exact ⟨fun _ => rfl, .inl rfl⟩
  | ok i =>
    rw [runCommand_of_ok hd] at h
    obtain ⟨hheld, htr, op, hop⟩ | ⟨hpc, -⟩ := exec_next h
    · have hpc : t.pc = s.pc := by rw [transportStep_frame htr]
      exact ⟨fun hn => absurd hheld hn, .inr ⟨hpc, hheld, htr, i, op, rfl, hop⟩⟩
    · exact ⟨fun _ => hpc, .inl hpc⟩

/-! ### The configuration and the fault bits (R22, R34) -/

/-- No step changes the configuration, and FAULT gains at most one bit, only under `fault`. -/
theorem step_cfg_faultBits {s t : State} (h : step s = .next t) :
    t.cfg = s.cfg ∧
      (t.faultBits = s.faultBits ∨ (s.cfg.contractMode = .fault ∧ ∃ op, t.faultBits = s.faultBits.add op)) := by
  obtain ⟨rest, htr | ⟨w, -, ⟨r, -, rfl⟩ | ⟨i, -, hc⟩⟩⟩ := step_next_cases h
  · rw [transportStep_frame htr]; exact ⟨rfl, .inl rfl⟩
  · exact ⟨rfl, .inl rfl⟩
  · exact ⟨hc.frame.2.1, hc.faultBits⟩

theorem FaultBits.add_onShow {f : FaultBits} (op : ContractOp) (h : f.onShow = true) : (f.add op).onShow = true := by
  cases op <;> simp [FaultBits.add, h]

theorem FaultBits.add_onSetlen {f : FaultBits} (op : ContractOp) (h : f.onSetlen = true) : (f.add op).onSetlen = true := by
  cases op <;> simp [FaultBits.add, h]

theorem FaultBits.add_onTeardown {f : FaultBits} (op : ContractOp) (h : f.onTeardown = true) :
    (f.add op).onTeardown = true := by
  cases op <;> simp [FaultBits.add, h]

/-- Settles O39: FAULT stays, or gains a bit under `fault`; and a final state has none. -/
theorem configurationFixedAndFaultBitsKept : Obligations.ConfigurationFixedAndFaultBitsKept := by
  refine ⟨fun s t h => ?_, fun s hbit hfinal => ?_⟩
  · obtain ⟨hcfg, hf | ⟨hmode, op, hf⟩⟩ := step_cfg_faultBits h
    · rw [hf]; exact ⟨hcfg, fun _ => rfl, id, id, id⟩
    · rw [hf]
      exact ⟨hcfg, fun hm => by simp [hmode] at hm, FaultBits.add_onShow op, FaultBits.add_onSetlen op,
        FaultBits.add_onTeardown op⟩
  · obtain ⟨-, -, hf⟩ := hfinal
    simp [hf, FaultBits.empty] at hbit

/-! ### Who writes a register (R23 to R29) -/

theorem commandRun_of_pc_kept {s t : State} (h : t.pc = s.pc) : commandRun s t = none := by
  simp [commandRun, h]

theorem commandRun_of_illegal {s t : State} {w : CommandWord} {r : Reject} (hw : s.nextCommand = some w)
    (hd : decode w = .illegal r) : commandRun s t = none := by
  simp [commandRun, hw, hd]

theorem commandRun_of_ok {s t : State} {w : CommandWord} {i : Instr} (hpc : t.pc = s.pc + 1) (hw : s.nextCommand = some w)
    (hd : decode w = .ok i) : commandRun s t = some i := by
  simp [commandRun, hpc, hw, hd]

/-- A step that goes on is a Transport step, which keeps the pc and every register, an illegal word, which writes STATUS only, or
the completed command that `commandRun` names. -/
theorem step_next_commandRun {s t : State} (h : step s = .next t) :
    ∃ rest,
      t = { s with schedule := rest, tx := t.tx, events := t.events, draws := t.draws, drawCount := t.drawCount } ∨
      (t = { s with schedule := rest, status := 3, pc := s.pc + 1 } ∧ commandRun s t = none) ∨
      ∃ i, commandRun s t = some i ∧ Completes { s with schedule := rest } i t := by
  obtain ⟨rest, htr | ⟨w, hw, ⟨r, hd, ht⟩ | ⟨i, hd, hc⟩⟩⟩ := step_next_cases h
  · exact ⟨rest, .inl (transportStep_frame htr)⟩
  · exact ⟨rest, .inr (.inl ⟨ht, commandRun_of_illegal hw hd⟩)⟩
  · exact ⟨rest, .inr (.inr ⟨i, commandRun_of_ok hc.frame.1 hw hd, hc⟩)⟩

/-- Settles O50: a Transport step and an illegal word keep these registers, and a completed command changes its own only. -/
theorem onlyTheListedCommandsWriteARegister : Obligations.OnlyTheListedCommandsWriteARegister := by
  intro s t h
  obtain ⟨rest, ht | ⟨ht, -⟩ | ⟨i, hrun, hc⟩⟩ := step_next_commandRun h
  · rw [ht]; simp
  · rw [ht]; simp
  · simp only [hrun, Option.some.injEq]
    refine ⟨fun hne => ?_, hc.active.resolve_left, hc.begun.resolve_left, hc.result.resolve_left⟩
    exact hc.buffer_registers.resolve_left fun ⟨hv, hn, hfs⟩ => by simp [hv, hn, hfs] at hne

/-- Settles O51: a Transport step keeps STATUS and the pc, an illegal word writes 3, a completed command its own code. -/
theorem statusCodesByCommand : Obligations.StatusCodesByCommand := by
  intro s t h
  obtain ⟨rest, ht | ⟨ht, hrun⟩ | ⟨i, hrun, hc⟩⟩ := step_next_commandRun h
  · have hpc : t.pc = s.pc := by rw [ht]
    exact ⟨fun _ => by rw [ht], fun hpc' => absurd hpc' (by omega)⟩
  · have hpc : t.pc = s.pc + 1 := by rw [ht]
    have hstatus : t.status = 3 := by rw [ht]
    exact ⟨fun hpc' => absurd hpc' (by omega), fun _ => .inr (.inr (.inr (.inl ⟨hstatus, hrun⟩)))⟩
  · refine ⟨fun hpc => absurd hpc (by rw [hc.frame.1]; simp), fun _ => ?_⟩
    simp only [hrun, Option.some.injEq, exists_eq', and_true, reduceCtorEq, and_false, false_or]
    exact hc.status

/-! ### The invariant -/

/-- Settles O2: nothing is allocated, nothing is in flight, and STATUS is 0. -/
theorem resetMeetsInv : Obligations.ResetMeetsInv := fun _ =>
  { registers := ⟨rfl, rfl, rfl⟩
    ram := ⟨List.Pairwise.nil, fun _ => rfl⟩
    bracketed := fun hv => Bool.noConfusion hv
    codewords := fun hv => Bool.noConfusion hv
    status := Nat.zero_le 6
    pc := Nat.le_refl 0
    transfer := fun _ hx => Tx.noConfusion hx
    inactive := fun _ hx => Tx.noConfusion hx }

/-- Dropping the transfer in flight keeps the invariant: it then says nothing of a transfer. -/
theorem inv_idle {s : State} (hi : Inv s) : Inv { s with tx := .idle } :=
  { registers := hi.registers, ram := hi.ram, bracketed := hi.bracketed, codewords := hi.codewords,
    status := hi.status, pc := hi.pc, transfer := fun _ hx => Tx.noConfusion hx, inactive := fun _ hx => Tx.noConfusion hx }

theorem State.checked_faultBits_ne_empty {s : State} (htx : s.tx ≠ .idle) (op : ContractOp) :
    (s.checked op).faultBits ≠ .empty := by
  cases op <;> simp [State.checked, htx, FaultBits.add, FaultBits.empty]

/-- The contract's check keeps the invariant: with a transfer in flight a bit is then set. -/
theorem inv_checked {s : State} (hi : Inv s) (op : ContractOp) : Inv (s.checked op) := by
  by_cases htx : s.tx = .idle
  · rwa [State.checked_of_idle htx]
  · have hf := State.checked_faultBits_ne_empty htx op
    rw [State.checked_eq]
    exact { registers := hi.registers, ram := hi.ram, bracketed := hi.bracketed, codewords := hi.codewords,
            status := hi.status, pc := hi.pc, transfer := hi.transfer, inactive := fun _ _ he => absurd he hf }

theorem Inv.two_le_fs {s : State} (hi : Inv s) (hv : s.valid = true) : 2 ≤ s.fs := by
  rw [(hi.enabled hv).1, frameBytes]; omega

/-- A pixel index in range means that a buffer is held (R35). -/
theorem Inv.valid_of_index {s : State} (hi : Inv s) {i : Nat} (h : i < s.n.toNat) : s.valid = true := by
  by_contra hv
  have hr := hi.registers
  rw [State.RegistersAgree, if_neg hv] at hr
  simp [hr.1] at h

/-- Writing one pixel of the active half keeps the invariant (R140). -/
theorem inv_writePixel {s t : State} (hi : Inv s) {i : Nat} (hidx : i < s.n.toNat) (r g b w : Byte)
    (h : t = { s with ram := Memory.writeBytes s.ram (s.slot s.active i) (slotBytes s.cfg.variant r g b w),
                      status := t.status, pc := t.pc })
    (h1 : t.status.toNat ≤ 6) (h2 : t.pc ≤ t.program.length) : Inv t := by
  refine inv_write hi (hi.valid_of_index hidx) i 1 (slotBytes s.cfg.variant r g b w)
    (by rw [slotBytes_length, Nat.one_mul]) hidx (fun q hq => ⟨channelAt r g b w q, fun j hj => ?_⟩) h h1 h2
  rw [slotBytes_getElem? _ r g b w (by rwa [Nat.one_mul] at hq) hj, tripletBytes_getElem? _ hj]

/-- Clearing every slot of the active half keeps the invariant (R122). -/
theorem inv_clearSlots {s t : State} (hi : Inv s) (hv : s.valid = true)
    (h : t = { s with ram := Memory.writeBytes s.ram (s.slot s.active 0) (clearedSlots s.cfg.variant s.n.toNat),
                      status := t.status, pc := t.pc })
    (h1 : t.status.toNat ≤ 6) (h2 : t.pc ≤ t.program.length) : Inv t := by
  refine inv_write hi hv 0 s.n.toNat (clearedSlots s.cfg.variant s.n.toNat)
    (by rw [clearedSlots_length, Nat.mul_left_comm]) (by omega) (fun q hq => ⟨0, fun j hj => ?_⟩) h h1 h2
  rw [clearedSlots_getElem? _ _ hq hj, tripletBytes_getElem? _ hj]

/-! ### A SHOW keeps the invariant -/

/-- After the clone copy (R164) each half reads as the active half did. -/
theorem read_half_of_copy {s : State} {m : Memory}
    (hm : Memory.copy s.ram (s.base s.active.other) (s.base s.active) s.fs = some m) (h : Half) {o : Nat} (ho : o < s.fs) :
    Memory.read m (s.base h + o) = Memory.read s.ram (s.base s.active + o) := by
  rcases Half.eq_or_eq_other h s.active with rfl | rfl
  · exact Memory.read_copy_outside hm (halves_disjoint s s.active (by omega) (by omega))
  · exact Memory.read_copy_inside hm ho

theorem base_le_fs (s : State) (h : Half) : s.base h ≤ s.fs := by
  cases h with
  | a => rw [base_a]; exact Nat.zero_le _
  | b => rw [base_b]

/-- The clone copy leaves the bytes outside the DoubleBuffer as they were. -/
theorem read_beyond_of_copy {s : State} {m : Memory}
    (hm : Memory.copy s.ram (s.base s.active.other) (s.base s.active) s.fs = some m) {a : Nat} (ha : 2 * s.fs ≤ a) :
    Memory.read m a = Memory.read s.ram a := by
  have hbase := base_le_fs s s.active.other
  exact Memory.read_copy_outside hm (.inr (by omega))

/-- The clone copy keeps the invariant of an Idle block that holds a buffer. -/
theorem inv_copy {s : State} {m : Memory} (hi : Inv s) (hidle : s.tx = .idle) (hv : s.valid = true)
    (hm : Memory.copy s.ram (s.base s.active.other) (s.base s.active) s.fs = some m) : Inv { s with ram := m } := by
  have hfs := hi.two_le_fs hv
  have hhalf := fun h o (ho : o < s.fs) => read_half_of_copy hm h ho
  obtain ⟨hpre, htrail⟩ := hi.bracketed hv s.active
  refine { registers := hi.registers, ram := ⟨Memory.copy_wf hi.ram.1 hm, fun a => ?_⟩,
           bracketed := fun _ h => ⟨?_, ?_⟩, codewords := fun _ h i hin k hk => ?_, status := hi.status, pc := hi.pc,
           transfer := hi.transfer, inactive := fun x hx => by simp [hidle] at hx }
  · show (Memory.read m a).isSome = decide (s.valid = true ∧ a < 2 * s.fs)
    by_cases ha : a < 2 * s.fs
    · obtain ⟨h, h1, h2⟩ := (in_half_iff s a).mp ha
      obtain ⟨o, rfl⟩ := Nat.exists_eq_add_of_le h1
      rw [hhalf h o (by omega), hi.readable hv ((in_half_iff s _).mpr ⟨s.active, by omega, by omega⟩)]
      simp [hv, ha]
    · rw [read_beyond_of_copy hm (by omega), hi.ram.2]
  · show Memory.read m (s.base h) = some 0
    simpa [hpre] using hhalf h 0 (by omega)
  · show Memory.read m (s.base h + s.fs - 1) = some 0
    rw [Nat.add_sub_assoc (by omega), hhalf h _ (by omega), ← Nat.add_sub_assoc (by omega), htrail]
  · show ∃ v : Byte, Memory.readBytes m (s.slot h i + 3 * k) 3 = some (tripletBytes (lut v))
    obtain ⟨v, hread⟩ := hi.codewords hv s.active i hin k hk
    have hin : i < s.n.toNat := hin
    have hk : k < channels s.cfg.variant := hk
    have hbounds := slot_bounds (hi.enabled hv).1 s.active hin
    refine ⟨v, Memory.readBytes_of_reads (tripletBytes_length _) fun j hj => ?_⟩
    rw [← Memory.read_of_readBytes hread hj]
    simp only [slot_eq, Nat.add_assoc] at hbounds ⊢
    exact hhalf h _ (by omega)

/-- Starting the transfer of the active half and flipping keeps the invariant, whatever FAULT then is (R162, R166). -/
theorem inv_startTransfer {s : State} (hi : Inv s) (hb : s.begun = true) (hv : s.valid = true) (f : FaultBits) :
    Inv { s with
      active := s.active.other
      tx := .busy { half := s.active, base := BitVec.ofNat 21 (s.base s.active), len := s.frameSize, pos := 0, bytes := [] }
      faultBits := f } := by
  refine { registers := ?_, ram := hi.ram, bracketed := hi.bracketed, codewords := hi.codewords, status := hi.status,
           pc := hi.pc, transfer := fun x hx => ?_, inactive := fun x hx _ => ?_ }
  · unfold State.RegistersAgree
    rw [if_pos hv]
    exact hi.enabled hv
  · cases hx
    exact ⟨Nat.zero_le _, rfl⟩
  · cases hx
    exact ⟨hv, hb, (Half.other_other _).symm, Nat.mod_eq_of_lt (base_lt s s.active), rfl, rfl⟩

/-- A completed command keeps the invariant. -/
theorem Completes.inv {s t : State} {i : Instr} (hc : Completes s i t) (hi : Inv s) (hpc : s.pc < s.program.length) : Inv t := by
  have h1 : t.status.toNat ≤ 6 := hc.status_le
  have h2 : t.pc ≤ t.program.length := by
    obtain ⟨hpc', -, hprog⟩ := hc.frame
    rw [hpc', hprog]; exact hpc
  cases hc with
  | encodeByte | decodePattern | pack | pixcnt | clearDisabled | setpixIndex | setpixpIndex | beginAgain | showNotBegun
  | showDisabled => exact inv_of_frame hi rfl h1 h2
  | clear hv => exact inv_clearSlots hi hv rfl h1 h2
  | setpix r g b w hidx => exact inv_writePixel hi hidx r g b w rfl h1 h2
  | setpixp col hidx => exact inv_writePixel hi hidx (colR col) (colG col) (colB col) (colW col) rfl h1 h2
  | beginFirst hb =>
    exact { registers := hi.registers, ram := hi.ram, bracketed := hi.bracketed, codewords := hi.codewords,
            status := h1, pc := h2, transfer := hi.transfer,
            inactive := fun x hx hf => by
              obtain ⟨hv, -, hrest⟩ := hi.inactive x hx hf
              exact ⟨hv, rfl, hrest⟩ }
  | setlen hh hcap =>
    have hf := State.checked_faultBits_ne_empty (s := s) (op := .setlen)
    exact inv_allocate (s := (s.checked .setlen).release) _ (by simpa using hcap) rfl
      (inv_checked hi .setlen).transfer h1 h2 (by simpa using hf)
  | setlenAlloc hh _ =>
    have hf := State.checked_faultBits_ne_empty (s := s) (op := .setlen)
    exact inv_release (s := s.checked .setlen) rfl (inv_checked hi .setlen) h1 h2 (by simpa using hf)
  | teardown hh =>
    have hf := State.checked_faultBits_ne_empty (s := s) (op := .teardown)
    exact inv_release (s := s.checked .teardown) rfl (inv_checked hi .teardown) h1 h2 (by simpa using hf)
  | @showFrame clone m hh hb hv hm =>
    have hram : Inv { s with tx := .idle, ram := m } := by
      obtain ⟨-, rfl⟩ | ⟨-, hm⟩ := hm
      · exact inv_idle hi
      · exact inv_copy (inv_idle hi) rfl hv hm
    refine inv_of_frame (inv_startTransfer hram hb hv (s.checked .showFrame).faultBits) ?_ h1 h2
    rw [State.checked_eq]; rfl

theorem pc_lt_of_nextCommand {s : State} {w : CommandWord} (hw : s.nextCommand = some w) : s.pc < s.program.length :=
  (List.getElem?_eq_some_iff.mp hw).1

/-- Settles O3: a Transport step, an illegal word and a completed command each keep the invariant. -/
theorem stepKeepsInv : Obligations.StepKeepsInv := by
  intro s t hi h
  obtain ⟨rest, hstep⟩ := step_next_cases h
  have hu : Inv { s with schedule := rest } := inv_of_frame hi rfl hi.status hi.pc
  obtain htr | ⟨w, hw, ⟨r, -, rfl⟩ | ⟨i, -, hc⟩⟩ := hstep
  · exact inv_transport hu htr
  · exact inv_of_frame hi rfl (show (3#8).toNat ≤ 6 by decide) (pc_lt_of_nextCommand hw)
  · exact hc.inv hu (pc_lt_of_nextCommand hw)

/-! ### With no violation recorded, whoever has a step goes on -/

theorem exists_next_ite {c : Prop} [Decidable c] {a b : Result} (ha : ∃ t, a = .next t) (hb : ∃ t, b = .next t) :
    ∃ t, (if c then a else b) = .next t := by
  split
  · exact ha
  · exact hb

/-- An unviolated transfer reads the inactive half, every byte of which holds a value (R31, R217). -/
theorem transportStep_goes_on {s : State} {x : Transfer} (hi : Inv s) (hf : s.faultBits = .empty) (htx : s.tx = .busy x) :
    ∃ t, transportStep s = .next t := by
  cases hstep : transportStep s with
  | next t => exact ⟨t, rfl⟩
  | fault f =>
    obtain ⟨y, hy, hpos, hnone⟩ := transportStep_fault hstep
    obtain ⟨hv, -, -, hbase, hlen, -⟩ := hi.inactive y hy hf
    rw [hlen] at hpos
    have hin : y.base.toNat + y.pos < 2 * s.fs :=
      (in_half_iff s _).mpr ⟨y.half, by omega, by rw [hbase]; exact Nat.add_lt_add_left hpos _⟩
    have hsome := hi.readable hv hin
    rw [hnone] at hsome
    cases hsome
  | refused r => simp [transportStep_refused hstep] at htx

/-- A restricted command goes on if the Transport does where the contract holds it, and its effect does elsewhere. -/
theorem contractCheck_goes_on {s : State} {op : ContractOp} {k : State → Result} (hi : Inv s) (hf : s.faultBits = .empty)
    (hk : ∃ t, k (s.checked op) = .next t) : ∃ t, contractCheck op s k = .next t := by
  by_cases hh : s.Held
  · rw [contractCheck_of_held hh]
    cases htx : s.tx with
    | idle => exact absurd htx hh.1
    | busy x => exact transportStep_goes_on hi hf htx
  · rwa [contractCheck_of_not_held hh]

/-- The clone copy reads an allocated half, so an accepted SHOW goes on (R164). -/
theorem sendFrame_goes_on {s : State} (hi : Inv s) (hv : s.valid = true) (clone : Bool) : ∃ t, sendFrame clone s = .next t := by
  cases clone with
  | false => exact ⟨_, rfl⟩
  | true =>
    obtain ⟨vs, hvs⟩ := hi.half_readable hv s.active
    have hcopy := (Memory.copy_eq_some_iff s.ram _ (s.base s.active.other) (s.base s.active) s.fs).mpr ⟨vs, hvs, rfl⟩
    simp only [sendFrame, if_true]
    split
    · exact ⟨_, rfl⟩
    · next hnone => exact absurd (hnone.symm.trans hcopy) (by simp)

/-- No command faults or is refused while no violation is recorded. -/
theorem exec_goes_on {s : State} (hi : Inv s) (hf : s.faultBits = .empty) (i : Instr) : ∃ t, exec i s = .next t := by
  cases i with
  | encodeByte | decodePattern | pack | pixcnt => exact ⟨_, rfl⟩
  | clear => exact exists_next_ite ⟨_, rfl⟩ ⟨_, rfl⟩
  | setpix => exact exists_next_ite ⟨_, rfl⟩ ⟨_, rfl⟩
  | setpixp => exact exists_next_ite ⟨_, rfl⟩ ⟨_, rfl⟩
  | beginTransport => exact exists_next_ite ⟨_, rfl⟩ ⟨_, rfl⟩
  | setlen =>
    simp only [exec, execSetlen]
    exact contractCheck_goes_on hi hf (exists_next_ite ⟨_, rfl⟩ ⟨_, rfl⟩)
  | teardown =>
    simp only [exec, execTeardown]
    exact contractCheck_goes_on hi hf ⟨_, rfl⟩
  | showFrame clone =>
    by_cases hv : s.valid = true
    · have hsend := sendFrame_goes_on (inv_checked hi .showFrame) (by simpa using hv) clone
      exact exists_next_ite ⟨_, rfl⟩ (exists_next_ite ⟨_, rfl⟩ (contractCheck_goes_on hi hf hsend))
    · exact exists_next_ite ⟨_, rfl⟩ ⟨_, by simp only [hv]; rfl⟩

theorem runCommand_goes_on {s : State} (hi : Inv s) (hf : s.faultBits = .empty) (w : CommandWord) :
    ∃ t, runCommand w s = .next t := by
  cases hd : decode w with
  | ok i => rw [runCommand_of_ok hd]; exact exec_goes_on hi hf i
  | illegal r => exact ⟨_, runCommand_of_illegal hd s⟩

/-- A step goes on wherever a command is left or a transfer is in flight. -/
theorem step_goes_on {s : State} (hi : Inv s) (hf : s.faultBits = .empty) (h : ¬ (s.nextCommand = none ∧ s.tx = .idle)) :
    ∃ t, step s = .next t := by
  have hrest (rest : List Agent) : Inv { s with schedule := rest } := inv_of_frame hi rfl hi.status hi.pc
  cases hw : s.nextCommand with
  | none =>
    cases htx : s.tx with
    | idle => exact absurd ⟨hw, htx⟩ h
    | busy x => rw [step_of_no_command_busy hw htx]; exact transportStep_goes_on hi hf htx
  | some w =>
    cases htx : s.tx with
    | idle => rw [step_of_idle hw htx]; exact runCommand_goes_on hi hf w
    | busy x =>
      cases hs : s.schedule with
      | nil => rw [step_of_schedule_nil hw hs]; exact runCommand_goes_on hi hf w
      | cons agent rest =>
        cases agent with
        | controller => rw [step_of_controller_head hw htx hs]; exact runCommand_goes_on (hrest rest) hf w
        | transport => rw [step_of_transport_head hw htx hs]; exact transportStep_goes_on (hrest rest) hf htx

/-- Settles O4: at the end of the run the step is refused, and everywhere else it goes on. -/
theorem unviolatedStepNeverFaults : Obligations.UnviolatedStepNeverFaults := by
  intro s hi hf
  by_cases hend : s.nextCommand = none ∧ s.tx = .idle
  · simp [step_of_no_command_idle hend.1 hend.2, hend]
  · obtain ⟨t, ht⟩ := step_goes_on hi hf hend
    simp [ht, hend]

end Sys2Proof.Machine
end

section
/-! Repeating a command (spec/20_memory.md R59): every command but SHOW, issued again with the transport Idle, finds the state it
left and writes the same values over it. -/

namespace Sys2Proof.Machine

/-- Writing the same bytes again over a memory in its canonical form leaves it as it is. -/
theorem Memory.writeBytes_writeBytes_same {m : Memory} (hwf : Memory.wf m) (a : Nat) (vs : List Byte) :
    Memory.writeBytes (Memory.writeBytes m a vs) a vs = Memory.writeBytes m a vs := by
  have hwf' := Memory.writeBytes_wf a vs hwf
  refine Memory.ext_of_wf (Memory.writeBytes_wf a vs hwf') hwf' fun b => ?_
  rw [Memory.read_writeBytes]
  split
  · next hb => rw [Memory.read_writeBytes, if_pos hb]
  · rfl

/-- Storing the same bytes a second time makes no other state. -/
theorem State.store_twice {s : State} (hwf : Memory.wf s.ram) (a : Nat) (vs : List Byte) (c : BitVec 8) (p : Nat) :
    { s with ram := Memory.writeBytes (Memory.writeBytes s.ram a vs) a vs, status := c, pc := p } =
      { s with ram := Memory.writeBytes s.ram a vs, status := c, pc := p } := by
  rw [Memory.writeBytes_writeBytes_same hwf]

theorem exec_next_completes_of_idle {i : Instr} {s t : State} (htx : s.tx = .idle) (h : exec i s = .next t) :
    Completes s i t :=
  (exec_next_completes h).resolve_left fun ⟨⟨hbusy, _⟩, _⟩ => hbusy htx

/-- Only SHOW starts a transfer (R32). -/
theorem Completes.tx {s t : State} {i : Instr} (h : Completes s i t) (hshow : ∀ c, i ≠ .showFrame c) : t.tx = s.tx := by
  cases h with
  | showFrame => exact absurd rfl (hshow _)
  | _ => simp

/-- A command completed twice: the second run takes the same branch of its rule as the first and writes the same values. -/
theorem Completes.twice {s t u : State} {i : Instr} (hwf : Memory.wf s.ram) (htx : s.tx = .idle)
    (hshow : ∀ c, i ≠ .showFrame c) (h : Completes s i t) (h' : Completes t i u) : u = { t with pc := t.pc + 1 } := by
  have htx' : t.tx = .idle := (h.tx hshow).trans htx
  cases h with
  | encodeByte | decodePattern | pack | pixcnt => cases h'; rfl
  | clearDisabled hv =>
    cases h' with
    | clearDisabled => rfl
    | clear hv' => exact absurd (hv.symm.trans hv') (by simp)
  | clear hv =>
    cases h' with
    | clearDisabled hv' => exact absurd (hv.symm.trans hv') (by simp)
    | clear => exact State.store_twice hwf _ _ _ _
  | setpixIndex r g b w hidx =>
    cases h' with
    | setpixIndex => rfl
    | setpix _ _ _ _ hidx' => exact absurd hidx' (Nat.not_lt.mpr hidx)
  | setpix r g b w hidx =>
    cases h' with
    | setpixIndex _ _ _ _ hidx' => exact absurd hidx (Nat.not_lt.mpr hidx')
    | setpix => exact State.store_twice hwf _ _ _ _
  | setpixpIndex col hidx =>
    cases h' with
    | setpixpIndex => rfl
    | setpixp _ hidx' => exact absurd hidx' (Nat.not_lt.mpr hidx)
  | setpixp col hidx =>
    cases h' with
    | setpixpIndex _ hidx' => exact absurd hidx (Nat.not_lt.mpr hidx')
    | setpixp => exact State.store_twice hwf _ _ _ _
  | beginAgain hb =>
    cases h' with
    | beginAgain => rfl
    | beginFirst hb' => exact absurd (hb.symm.trans hb') (by simp)
  | beginFirst =>
    cases h' with
    | beginAgain => rfl
    | beginFirst hb' => cases hb'
  | setlen _ hcap =>
    rw [State.checked_of_idle htx] at htx' h' ⊢
    cases h' with
    | setlen => rw [State.checked_of_idle htx']; rfl
    | setlenAlloc _ hcap' => exact absurd hcap (Nat.not_le.mpr hcap')
  | setlenAlloc _ hcap =>
    rw [State.checked_of_idle htx] at htx' h' ⊢
    cases h' with
    | setlen _ hcap' => exact absurd hcap' (Nat.not_le.mpr hcap)
    | setlenAlloc => rw [State.checked_of_idle htx']; rfl
  | teardown =>
    rw [State.checked_of_idle htx] at htx' h' ⊢
    cases h'
    rw [State.checked_of_idle htx']; rfl
  | showNotBegun c | showDisabled c => exact absurd rfl (hshow c)
  | showFrame => exact absurd rfl (hshow _)

/-- Settles O53: with the transport Idle no command is held, so both runs complete, and a completed command repeats itself. -/
theorem repeatedCommandsAreIdempotent : Obligations.RepeatedCommandsAreIdempotent := by
  intro s t u i hi htx hshow h h'
  obtain ⟨hwf, -⟩ := hi.ram
  have hc := exec_next_completes_of_idle htx h
  have hc' := exec_next_completes_of_idle ((hc.tx hshow).trans htx) h'
  exact hc.twice hwf htx hshow hc'

end Sys2Proof.Machine
end

section
/-! The encoding of spec/30_encoding.md: decoder and encoder are inverse on the eleven commands' words, the match/mask rows, the
illegal words, and the assembler's lines. -/

namespace Sys2Proof

/-! ### The match/mask rows (R73) -/

/-- The command of `i`'s row whose operands are the fields of `w` (R71). -/
def Instr.readFrom (w : CommandWord) : Instr → Instr
  | .encodeByte _ => .encodeByte (field w 0 8)
  | .decodePattern _ => .decodePattern (field w 0 24)
  | .pack _ _ _ _ => .pack (field w 24 8) (field w 16 8) (field w 8 8) (field w 0 8)
  | .setlen _ => .setlen (field w 0 16)
  | .clear => .clear
  | .pixcnt => .pixcnt
  | .teardown => .teardown
  | .setpix _ _ _ _ _ => .setpix (field w 40 16) (field w 24 8) (field w 16 8) (field w 8 8) (field w 0 8)
  | .setpixp _ _ => .setpixp (field w 40 16) (field w 0 32)
  | .beginTransport => .beginTransport
  | .showFrame _ => .showFrame (field w 0 1 == 1#1)

theorem encode_passes_mask (i : Instr) : encode i &&& (rowOf i).mask = (rowOf i).pattern := by
  cases i with
  | encodeByte v => exact Laws.EncodingRow.encodeByte v
  | decodePattern p => exact Laws.EncodingRow.decodePattern p
  | pack r g b w => exact Laws.EncodingRow.pack r g b w
  | setlen n => exact Laws.EncodingRow.setlen n
  | clear => exact Laws.EncodingRow.clear
  | pixcnt => exact Laws.EncodingRow.pixcnt
  | teardown => exact Laws.EncodingRow.teardown
  | setpix idx r g b w => exact Laws.EncodingRow.setpix idx r g b w
  | setpixp idx col => exact Laws.EncodingRow.setpixp idx col
  | beginTransport => exact Laws.EncodingRow.beginTransport
  | showFrame clone => exact Laws.EncodingRow.showFrame clone

/-- A field that the mask keeps whole is the pattern's. -/
theorem field_of_masked {w mask pattern : CommandWord} (h : w &&& mask = pattern) (lo n : Nat)
    (hm : field mask lo n = BitVec.allOnes n) : field w lo n = field pattern lo n := by
  have hand : field (w &&& mask) lo n = field w lo n &&& field mask lo n := BitVec.extractLsb'_and
  rw [← h, hand, hm, BitVec.and_allOnes]

theorem unlessReserved_of_clear {w : CommandWord} {lo n : Nat} (h : field w lo n = 0) (i : Instr) :
    unlessReserved w (field w lo n == 0) i = .ok i := by
  simp [unlessReserved, h]

/-- The mask keeps the opcode and the reserved fields, and the pattern fixes them, so the decoder reads the row's command. -/
theorem decode_of_masked (i : Instr) {w : CommandWord} (h : w &&& (rowOf i).mask = (rowOf i).pattern) :
    decode w = .ok (i.readFrom w) := by
  cases i with simp only [rowOf] at h
  | encodeByte =>
    exact (decode_of_opcode_01 (field_of_masked h 56 8 rfl)).trans (unlessReserved_of_clear (field_of_masked h 8 48 rfl) _)
  | decodePattern =>
    exact (decode_of_opcode_02 (field_of_masked h 56 8 rfl)).trans (unlessReserved_of_clear (field_of_masked h 24 32 rfl) _)
  | pack =>
    exact (decode_of_opcode_03 (field_of_masked h 56 8 rfl)).trans (unlessReserved_of_clear (field_of_masked h 32 24 rfl) _)
  | setlen =>
    exact (decode_of_opcode_10 (field_of_masked h 56 8 rfl)).trans (unlessReserved_of_clear (field_of_masked h 16 40 rfl) _)
  | clear =>
    exact (decode_of_opcode_11 (field_of_masked h 56 8 rfl)).trans (unlessReserved_of_clear (field_of_masked h 0 56 rfl) _)
  | pixcnt =>
    exact (decode_of_opcode_12 (field_of_masked h 56 8 rfl)).trans (unlessReserved_of_clear (field_of_masked h 0 56 rfl) _)
  | teardown =>
    exact (decode_of_opcode_13 (field_of_masked h 56 8 rfl)).trans (unlessReserved_of_clear (field_of_masked h 0 56 rfl) _)
  | setpix =>
    exact (decode_of_opcode_20 (field_of_masked h 56 8 rfl)).trans (unlessReserved_of_clear (field_of_masked h 32 8 rfl) _)
  | setpixp =>
    exact (decode_of_opcode_21 (field_of_masked h 56 8 rfl)).trans (unlessReserved_of_clear (field_of_masked h 32 8 rfl) _)
  | beginTransport =>
    exact (decode_of_opcode_30 (field_of_masked h 56 8 rfl)).trans (unlessReserved_of_clear (field_of_masked h 0 56 rfl) _)
  | showFrame =>
    exact (decode_of_opcode_31 (field_of_masked h 56 8 rfl)).trans (unlessReserved_of_clear (field_of_masked h 1 55 rfl) _)

/-! ### Encoding and decoding are inverse -/

theorem field_eq_of_toNat {w : CommandWord} {lo n : Nat} {x : BitVec n} (h : w.toNat / 2 ^ lo % 2 ^ n = x.toNat) :
    field w lo n = x :=
  BitVec.eq_of_toNat_eq ((field_toNat w lo n).trans h)

/-- No operand bit is dropped: each field of a command's word is the operand written there. -/
theorem readFrom_encode (i : Instr) : i.readFrom (encode i) = i := by
  cases i with
  | encodeByte v =>
    have h := encode_encodeByte_toNat v
    rw [Instr.readFrom, field_eq_of_toNat (x := v) (by omega)]
  | decodePattern p =>
    have h := encode_decodePattern_toNat p
    rw [Instr.readFrom, field_eq_of_toNat (x := p) (by omega)]
  | pack r g b w =>
    have h := encode_pack_toNat r g b w
    rw [Instr.readFrom, field_eq_of_toNat (x := r) (by omega), field_eq_of_toNat (x := g) (by omega),
      field_eq_of_toNat (x := b) (by omega), field_eq_of_toNat (x := w) (by omega)]
  | setlen n =>
    have h := encode_setlen_toNat n
    rw [Instr.readFrom, field_eq_of_toNat (x := n) (by omega)]
  | setpix idx r g b w =>
    have h := encode_setpix_toNat idx r g b w
    rw [Instr.readFrom, field_eq_of_toNat (x := idx) (by omega), field_eq_of_toNat (x := r) (by omega),
      field_eq_of_toNat (x := g) (by omega), field_eq_of_toNat (x := b) (by omega), field_eq_of_toNat (x := w) (by omega)]
  | setpixp idx col =>
    have h := encode_setpixp_toNat idx col
    rw [Instr.readFrom, field_eq_of_toNat (x := idx) (by omega), field_eq_of_toNat (x := col) (by omega)]
  | showFrame clone => cases clone <;> rfl
  | clear | pixcnt | teardown | beginTransport => rfl

theorem decode_encode (i : Instr) : decode (encode i) = .ok i := by
  rw [decode_of_masked i (encode_passes_mask i), readFrom_encode]

theorem cloneBit_toNat (w : CommandWord) : (field w 0 1 == 1#1).toNat = w.toNat % 2 := by
  have hbit : (field w 0 1).toNat = w.toNat % 2 := by simpa using field_toNat w 0 1
  obtain h | h := BitVec.eq_zero_or_eq_one (field w 0 1) <;> rw [h] at hbit ⊢ <;> exact hbit

/-- The opcode, the zeros of the reserved fields and the operands read are all of the word (R71, R74). -/
theorem encode_of_decode {w : CommandWord} {i : Instr} (h : decode w = .ok i) : encode i = w := by
  have hlt := w.isLt
  have hopNat := opcodeOf_toNat w
  apply BitVec.eq_of_toNat_eq
  obtain hop | hop | hop | hop | hop | hop | hop | hop | hop | hop | hop := opcode_of_decode_ok h <;>
    rw [hop, BitVec.toNat_ofNat] at hopNat
  · obtain ⟨hres, rfl⟩ := unlessReserved_ok.mp ((decode_of_opcode_01 hop).symm.trans h)
    rw [encode_encodeByte_toNat, field_toNat]; omega
  · obtain ⟨hres, rfl⟩ := unlessReserved_ok.mp ((decode_of_opcode_02 hop).symm.trans h)
    rw [encode_decodePattern_toNat, field_toNat]; omega
  · obtain ⟨hres, rfl⟩ := unlessReserved_ok.mp ((decode_of_opcode_03 hop).symm.trans h)
    simp only [encode_pack_toNat, field_toNat]; omega
  · obtain ⟨hres, rfl⟩ := unlessReserved_ok.mp ((decode_of_opcode_10 hop).symm.trans h)
    rw [encode_setlen_toNat, field_toNat]; omega
  · obtain ⟨hres, rfl⟩ := unlessReserved_ok.mp ((decode_of_opcode_11 hop).symm.trans h)
    rw [encode_clear_toNat]; omega
  · obtain ⟨hres, rfl⟩ := unlessReserved_ok.mp ((decode_of_opcode_12 hop).symm.trans h)
    rw [encode_pixcnt_toNat]; omega
  · obtain ⟨hres, rfl⟩ := unlessReserved_ok.mp ((decode_of_opcode_13 hop).symm.trans h)
    rw [encode_teardown_toNat]; omega
  · obtain ⟨hres, rfl⟩ := unlessReserved_ok.mp ((decode_of_opcode_20 hop).symm.trans h)
    simp only [encode_setpix_toNat, field_toNat]; omega
  · obtain ⟨hres, rfl⟩ := unlessReserved_ok.mp ((decode_of_opcode_21 hop).symm.trans h)
    simp only [encode_setpixp_toNat, field_toNat]; omega
  · obtain ⟨hres, rfl⟩ := unlessReserved_ok.mp ((decode_of_opcode_30 hop).symm.trans h)
    rw [encode_beginTransport_toNat]; omega
  · obtain ⟨hres, rfl⟩ := unlessReserved_ok.mp ((decode_of_opcode_31 hop).symm.trans h)
    rw [encode_showFrame_toNat, cloneBit_toNat]; omega

/-- Settles O5: the word passes its row's mask test, and each of its fields is the operand. -/
theorem decodeOfEncode : Obligations.DecodeOfEncode := decode_encode

/-- Settles O6, by the eleven opcodes: opcode, zeros and operands make up the word. -/
theorem decodedWordIsItsEncoding : Obligations.DecodedWordIsItsEncoding := fun _ _ => encode_of_decode

theorem decode_eq_ok_iff {w : CommandWord} {i : Instr} : decode w = .ok i ↔ encode i = w :=
  ⟨encode_of_decode, fun h => h ▸ decode_encode i⟩

theorem masked_of_decode {w : CommandWord} {i : Instr} (h : decode w = .ok i) :
    w &&& (rowOf i).mask = (rowOf i).pattern :=
  encode_of_decode h ▸ encode_passes_mask i

/-- Settles O7: a decoded word is an encoded one, which passes its row's mask test; a word that passes it decodes. -/
theorem wordIsCommandIffMaskMatches : Obligations.WordIsCommandIffMaskMatches := by
  intro w
  refine ⟨?_, ?_, ?_, ?_, ⟨masked_of_decode, decode_of_masked .clear⟩, ⟨masked_of_decode, decode_of_masked .pixcnt⟩,
    ⟨masked_of_decode, decode_of_masked .teardown⟩, ?_, ?_, ⟨masked_of_decode, decode_of_masked .beginTransport⟩, ?_⟩
  · exact ⟨fun ⟨_, h⟩ => masked_of_decode h, fun h => ⟨_, decode_of_masked (.encodeByte 0) h⟩⟩
  · exact ⟨fun ⟨_, h⟩ => masked_of_decode h, fun h => ⟨_, decode_of_masked (.decodePattern 0) h⟩⟩
  · exact ⟨fun ⟨_, _, _, _, h⟩ => masked_of_decode h, fun h => ⟨_, _, _, _, decode_of_masked (.pack 0 0 0 0) h⟩⟩
  · exact ⟨fun ⟨_, h⟩ => masked_of_decode h, fun h => ⟨_, decode_of_masked (.setlen 0) h⟩⟩
  · exact ⟨fun ⟨_, _, _, _, _, h⟩ => masked_of_decode h, fun h => ⟨_, _, _, _, _, decode_of_masked (.setpix 0 0 0 0 0) h⟩⟩
  · exact ⟨fun ⟨_, _, h⟩ => masked_of_decode h, fun h => ⟨_, _, decode_of_masked (.setpixp 0 0) h⟩⟩
  · exact ⟨fun ⟨_, h⟩ => masked_of_decode h, fun h => ⟨_, decode_of_masked (.showFrame false) h⟩⟩

/-- Settles O8: seven of the words are the commands' words, and the decoder rejects the other two. -/
theorem writtenOutWordsDecode : Obligations.WrittenOutWordsDecode :=
  ⟨decode_encode (.encodeByte 10), decode_encode (.decodePattern 0x926DB4), decode_encode (.pack 10 20 30 0),
    decode_encode (.setlen 3), by decide, decode_encode (.setpix 0x0102 3 4 5 6), decode_encode (.setpixp 1 0x000A141E),
    decode_encode (.showFrame true), by decide⟩

namespace Machine

/-! ### Words that are no command (R74 to R76) -/

theorem runCommand_of_not_decoded {w : CommandWord} (h : ∀ i, decode w ≠ .ok i) (s : State) :
    runCommand w s = .next { s with status := 3, pc := s.pc + 1 } := by
  cases hd : decode w with
  | ok i => exact absurd hd (h i)
  | illegal r => exact runCommand_of_illegal hd s

/-- Settles O9: a word that decodes has one of the eleven opcodes, and none of them lies in a range of R75. -/
theorem unassignedOpcodeRaisesIllegal : Obligations.UnassignedOpcodeRaisesIllegal := by
  intro w s hop
  refine runCommand_of_not_decoded (fun i hd => ?_) s
  obtain h | h | h | h | h | h | h | h | h | h | h := opcode_of_decode_ok hd <;>
    rw [show w.extractLsb' 56 8 = _ from h, BitVec.toNat_ofNat] at hop <;> omega

/-- Settles O10: a word decodes to a command exactly if it is that command's word. -/
theorem wordThatIsNoCommandRaisesIllegal : Obligations.WordThatIsNoCommandRaisesIllegal := by
  intro w s
  constructor
  · intro hno
    exact runCommand_of_not_decoded (fun i hd => hno i (decode_eq_ok_iff.mp hd)) s
  · intro i hi
    exact runCommand_of_ok (decode_eq_ok_iff.mpr hi) s

/-! ### The assembler (R77, R78) -/

theorem assemble_of_wellFormed {l : AsmLine} (h : l.wellFormed = true) : assemble l = some (assembleFields l) := if_pos h

theorem assemble_of_not_wellFormed {l : AsmLine} (h : ¬ l.wellFormed = true) : assemble l = none := if_neg h

theorem fits_iff {width x : Nat} : fits width x = true ↔ x < 2 ^ width := decide_eq_true_iff

theorem toNat_ofNat_of_fits {width x : Nat} (h : x < 2 ^ width) : (BitVec.ofNat width x).toNat = x := by
  rw [BitVec.toNat_ofNat, Nat.mod_eq_of_lt h]

/-- A line stands for one command word if its numbers fit, and is an error if one does not (R77): the two halves of each row of
the syntax table. -/
theorem assemble_row {l : AsmLine} {i : Instr} {fit misfit : Prop} {word : Nat} (hl : assembleFields l = .command i)
    (hfit : l.wellFormed = true ↔ fit) (hmisfit : misfit → ¬ fit) (hword : fit → (encode i).toNat = word) :
    (fit → ∃ i, assemble l = some (.command i) ∧ (encode i).toNat = word) ∧ (misfit → assemble l = none) :=
  ⟨fun h => ⟨i, hl ▸ assemble_of_wellFormed (hfit.mpr h), hword h⟩,
    fun h => assemble_of_not_wellFormed fun hw => hmisfit h (hfit.mp hw)⟩

/-- Settles O11: the operands of a fitting line are its numbers, and the word of a command is the sum of its fields. -/
theorem assembledWordIsTheSumOfItsFields : Obligations.AssembledWordIsTheSumOfItsFields := by
  refine ⟨fun v => ?_, fun p => ?_, fun r g b w => ?_, fun n => ?_, ⟨_, rfl, encode_clear_toNat⟩,
    ⟨_, rfl, encode_pixcnt_toNat⟩, ⟨_, rfl, encode_teardown_toNat⟩, fun n r g b w => ?_, fun n c => ?_,
    ⟨_, rfl, encode_beginTransport_toNat⟩, fun c => ?_⟩
  · refine assemble_row rfl fits_iff (by omega) fun hv => ?_
    rw [encode_encodeByte_toNat, toNat_ofNat_of_fits hv]
  · refine assemble_row rfl fits_iff (by omega) fun hp => ?_
    rw [encode_decodePattern_toNat, toNat_ofNat_of_fits hp]
  · refine assemble_row rfl (by simp only [AsmLine.wellFormed, Bool.and_eq_true, fits_iff, and_assoc]) (by omega) ?_
    rintro ⟨hr, hg, hb, hw⟩
    rw [encode_pack_toNat, toNat_ofNat_of_fits hr, toNat_ofNat_of_fits hg, toNat_ofNat_of_fits hb, toNat_ofNat_of_fits hw]
  · refine assemble_row rfl fits_iff (by omega) fun hn => ?_
    rw [encode_setlen_toNat, toNat_ofNat_of_fits hn]
  · refine assemble_row rfl (by simp only [AsmLine.wellFormed, Bool.and_eq_true, fits_iff, and_assoc]) (by omega) ?_
    rintro ⟨hn, hr, hg, hb, hw⟩
    rw [encode_setpix_toNat, toNat_ofNat_of_fits hn, toNat_ofNat_of_fits hr, toNat_ofNat_of_fits hg, toNat_ofNat_of_fits hb,
      toNat_ofNat_of_fits hw]
  · refine assemble_row rfl (by simp only [AsmLine.wellFormed, Bool.and_eq_true, fits_iff]) (by omega) ?_
    rintro ⟨hn, hc⟩
    rw [encode_setpixp_toNat, toNat_ofNat_of_fits hn, toNat_ofNat_of_fits hc]
  · refine assemble_row rfl fits_iff (by omega) fun hc => ?_
    rw [encode_showFrame_toNat]
    interval_cases c <;> rfl

theorem assemble_congr {l l' : AsmLine} (hwf : l.wellFormed = l'.wellFormed) (hf : assembleFields l = assembleFields l') :
    assemble l = assemble l' := by
  rw [assemble, assemble, hwf, hf]

theorem and_fits_zero (width : Nat) (b : Bool) : (b && fits width 0) = b := by
  rw [fits_iff.mpr (Nat.two_pow_pos width), Bool.and_true]

theorem constructed_step (c : Config) (n : Count) :
    step (State.constructed c n) = exec (.setlen n) (State.constructed c n) := by
  rw [step_of_idle (w := encode (.setlen n)) rfl rfl, runCommand_of_ok (decode_encode _)]

/-- With no transfer in flight SETLEN completes, allocated or not (R121). -/
theorem exec_setlen_goes_on_of_idle {s : State} (htx : s.tx = .idle) (n : Count) : ∃ t, exec (.setlen n) s = .next t := by
  rw [exec_setlen_of_not_held n fun hh => hh.1 htx]
  split
  · exact ⟨_, rfl⟩
  · exact ⟨_, rfl⟩

/-- Settles O12: each expansion assembles alike, and the host's only word after a reset is SETLEN's, which completes. -/
theorem pseudoInstructionsExpand : Obligations.PseudoInstructionsExpand := by
  refine ⟨fun _ _ _ _ => assemble_congr (and_fits_zero 8 _).symm rfl, fun _ _ _ => assemble_congr (and_fits_zero 8 _).symm rfl,
    rfl, rfl, rfl, fun n hn => assemble_of_wellFormed (fits_iff.mpr hn),
    fun n hn => assemble_of_not_wellFormed fun h => Nat.not_lt.mpr hn (fits_iff.mp h), fun c n => ?_⟩
  obtain ⟨t, ht⟩ := exec_setlen_goes_on_of_idle (s := State.constructed c n) rfl n
  refine ⟨t, constructed_step c n, (constructed_step c n).trans ht, ?_⟩
  obtain ⟨hpc, -, hprogram⟩ := (exec_next_completes_of_idle rfl ht).frame
  rw [State.nextCommand, hpc, hprogram]; rfl

end Machine

end Sys2Proof
end

section
/-! The encoder commands of spec/40_encoder.md: the encoding table and its inverse group by group, the codewords, and ENCODE,
DECODE and PACK. -/

namespace Sys2Proof.Machine

/-! ### The groups of a pattern (R100) -/

/-- The patterns of a list of data bits, the first bit in the lowest group. -/
def groupsOf : List Bool → Pattern
  | [] => 0#24
  | b :: bs => (groupsOf bs <<< 3) ||| bitGroup b

/-- R100's algorithm goes from data bit 7 down to 0, so bit 0 ends in the lowest group. -/
theorem lut_eq_groupsOf (v : Byte) : lut v = groupsOf ((List.range 8).map v.getLsbD) := rfl

theorem getLsbD_bitGroup_of_le (b : Bool) {k : Nat} (hk : 3 ≤ k) : (bitGroup b).getLsbD k = false := by
  have hlt : (bitGroup b).toNat < 2 ^ 3 := by cases b <;> decide
  exact Nat.testBit_lt_two_pow (hlt.trans_le (Nat.pow_le_pow_right (by decide) hk))

/-- Group `i` holds the 3-bit pattern of the list's bit `i`. -/
theorem getLsbD_groupsOf {bs : List Bool} {i k : Nat} (hi : i < bs.length) (hk : k < 3) (h24 : 3 * i + k < 24) :
    (groupsOf bs).getLsbD (3 * i + k) = (bitGroup bs[i]).getLsbD k := by
  induction bs generalizing i with
  | nil => cases hi
  | cons b bs ih =>
    cases i with
    | zero => simp [groupsOf, hk]
    | succ i =>
      have hshift : 3 * (i + 1) + k - 3 = 3 * i + k := by omega
      have hhigh := getLsbD_bitGroup_of_le b (k := 3 * (i + 1) + k) (by omega)
      rw [groupsOf, BitVec.getLsbD_or, hhigh, BitVec.getLsbD_shiftLeft, hshift, ih (by simpa using hi) (by omega)]
      simp [h24, show ¬ 3 * (i + 1) + k < 3 by omega]

/-- Group `i` of `LUT[v]` is the transport pattern of data bit `i`. -/
theorem getLsbD_lut (v : Byte) {i k : Nat} (hi : i < 8) (hk : k < 3) :
    (lut v).getLsbD (3 * i + k) = (bitGroup (v.getLsbD i)).getLsbD k := by
  rw [lut_eq_groupsOf, getLsbD_groupsOf (by simpa using hi) hk (by omega)]
  simp

theorem lut_first_bit (v : Byte) {i : Nat} (hi : i < 8) : (lut v).getLsbD (3 * i + 2) = true := by
  rw [getLsbD_lut v hi (by decide)]; cases v.getLsbD i <;> rfl

theorem lut_middle_bit (v : Byte) {i : Nat} (hi : i < 8) : (lut v).getLsbD (3 * i + 1) = v.getLsbD i := by
  rw [getLsbD_lut v hi (by decide)]; cases v.getLsbD i <;> rfl

theorem lut_last_bit (v : Byte) {i : Nat} (hi : i < 8) : (lut v).getLsbD (3 * i) = false := by
  rw [← Nat.add_zero (3 * i), getLsbD_lut v hi (by decide)]; cases v.getLsbD i <;> rfl

/-- Two patterns are equal if their eight groups are. -/
theorem pattern_eq_iff {p q : Pattern} : p = q ↔ ∀ i, i < 8 → p.getLsbD (3 * i) = q.getLsbD (3 * i) ∧
    p.getLsbD (3 * i + 1) = q.getLsbD (3 * i + 1) ∧ p.getLsbD (3 * i + 2) = q.getLsbD (3 * i + 2) := by
  refine ⟨fun h _ _ => by simp [h], fun h => BitVec.eq_of_getLsbD_eq fun j hj => ?_⟩
  obtain ⟨hlast, hmiddle, hfirst⟩ := h (j / 3) (by omega)
  obtain hk | hk | hk : j = 3 * (j / 3) ∨ j = 3 * (j / 3) + 1 ∨ j = 3 * (j / 3) + 2 := by omega
  · rwa [← hk] at hlast
  · rwa [← hk] at hmiddle
  · rwa [← hk] at hfirst

/-! ### The masks of the codewords (R101, R102) -/

theorem firstMask_bits : ∀ i, i < 8 → (0x924924#24).getLsbD (3 * i) = false ∧ (0x924924#24).getLsbD (3 * i + 1) = false ∧
    (0x924924#24).getLsbD (3 * i + 2) = true := by decide

theorem lastMask_bits : ∀ i, i < 8 → (0x249249#24).getLsbD (3 * i) = true ∧ (0x249249#24).getLsbD (3 * i + 1) = false ∧
    (0x249249#24).getLsbD (3 * i + 2) = false := by decide

theorem and_firstMask_iff (p : Pattern) :
    p &&& 0x924924#24 = 0x924924#24 ↔ ∀ i, i < 8 → p.getLsbD (3 * i + 2) = true := by
  rw [pattern_eq_iff]
  refine forall₂_congr fun i hi => ?_
  obtain ⟨hlast, hmiddle, hfirst⟩ := firstMask_bits i hi
  simp [hlast, hmiddle, hfirst]

theorem and_lastMask_iff (p : Pattern) :
    p &&& 0x249249#24 = 0#24 ↔ ∀ i, i < 8 → p.getLsbD (3 * i) = false := by
  rw [pattern_eq_iff]
  refine forall₂_congr fun i hi => ?_
  obtain ⟨hlast, hmiddle, hfirst⟩ := lastMask_bits i hi
  simp [hlast, hmiddle, hfirst]

theorem lut_and_firstMask (v : Byte) : lut v &&& 0x924924#24 = 0x924924#24 :=
  (and_firstMask_iff _).mpr fun _ => lut_first_bit v

theorem lut_and_lastMask (v : Byte) : lut v &&& 0x249249#24 = 0#24 :=
  (and_lastMask_iff _).mpr fun _ => lut_last_bit v

/-! ### Sums of single bits -/

/-- The sum, over the first `n` bits of `b`, of each one shifted to its place: the shape of `dec` (R102) and of the table's
closed form (R101). -/
def placedSum {w : Nat} (b : Nat → Bool) (pos : Nat → Nat) : Nat → BitVec w
  | 0 => 0#w
  | n + 1 => placedSum b pos n + if b n then 1#w <<< pos n else 0#w

theorem getLsbD_placedBit {w : Nat} (c : Bool) (q j : Nat) :
    (if c then 1#w <<< q else 0#w).getLsbD j = (decide (j < w) && (decide (q = j) && c)) := by
  cases c with
  | false => simp
  | true =>
    rw [if_pos rfl, ← BitVec.twoPow_eq, BitVec.getLsbD_twoPow]
    by_cases hq : q = j <;> simp [hq]

/-- The places differ, so nothing carries: a bit of the sum is 1 exactly if a bit of `b` stands there. -/
theorem getLsbD_placedSum {w : Nat} {b : Nat → Bool} {pos : Nat → Nat} (hpos : pos.Injective) (n j : Nat) :
    (placedSum b pos n : BitVec w).getLsbD j = true ↔ j < w ∧ ∃ i, i < n ∧ pos i = j ∧ b i = true := by
  induction n generalizing j with
  | zero => simp [placedSum]
  | succ n ih =>
    have hdisjoint : (placedSum b pos n : BitVec w) &&& (if b n then 1#w <<< pos n else 0#w) = 0#w := by
      refine BitVec.eq_of_getLsbD_eq fun k hk => ?_
      rw [BitVec.getLsbD_and, BitVec.getLsbD_zero, Bool.and_eq_false_iff, or_iff_not_imp_left, Bool.not_eq_false, ih]
      rintro ⟨-, i, hi, rfl, -⟩
      have hne : pos n ≠ pos i := fun h => absurd (hpos h) (Nat.ne_of_gt hi)
      simp [getLsbD_placedBit, hne]
    rw [placedSum, BitVec.add_eq_or_of_and_eq_zero _ _ hdisjoint, BitVec.getLsbD_or, Bool.or_eq_true, ih, getLsbD_placedBit]
    simp only [Bool.and_eq_true, decide_eq_true_eq, Nat.lt_succ_iff_lt_or_eq, or_and_right, exists_or, exists_eq_left,
      and_or_left]

theorem getLsbD_placedSum_at {w : Nat} {b : Nat → Bool} {pos : Nat → Nat} (hpos : pos.Injective) {n i : Nat} (hi : i < n)
    (hw : pos i < w) : (placedSum b pos n : BitVec w).getLsbD (pos i) = b i := by
  rw [Bool.eq_iff_iff, getLsbD_placedSum hpos]
  constructor
  · rintro ⟨-, k, -, hk, hb⟩
    rwa [← hpos hk]
  · exact fun hb => ⟨hw, i, hi, rfl, hb⟩

theorem getLsbD_placedSum_off {w : Nat} {b : Nat → Bool} {pos : Nat → Nat} (hpos : pos.Injective) (n : Nat) {j : Nat}
    (hj : ∀ i, pos i ≠ j) : (placedSum b pos n : BitVec w).getLsbD j = false := by
  rw [Bool.eq_false_iff, Ne, getLsbD_placedSum hpos]
  rintro ⟨-, i, -, hi, -⟩
  exact hj i hi

/-! ### The inverse of the table (R102) -/

theorem dec_eq_placedSum (p : Pattern) : dec p = placedSum (fun i => p.getLsbD (3 * i + 1)) id 8 := rfl

theorem getLsbD_dec (p : Pattern) {i : Nat} (hi : i < 8) : (dec p).getLsbD i = p.getLsbD (3 * i + 1) := by
  rw [dec_eq_placedSum]
  exact getLsbD_placedSum_at Function.injective_id hi hi

theorem dec_lut (v : Byte) : dec (lut v) = v :=
  BitVec.eq_of_getLsbD_eq fun i hi => by rw [getLsbD_dec _ hi, lut_middle_bit v hi]

/-- A pattern that passes both masks is the table's value at its own middle bits. -/
theorem lut_dec {p : Pattern} (hfirst : p &&& 0x924924#24 = 0x924924#24) (hlast : p &&& 0x249249#24 = 0#24) :
    lut (dec p) = p := by
  refine pattern_eq_iff.mpr fun i hi => ⟨?_, ?_, ?_⟩
  · rw [lut_last_bit _ hi, (and_lastMask_iff p).mp hlast i hi]
  · rw [lut_middle_bit _ hi, getLsbD_dec p hi]
  · rw [lut_first_bit _ hi, (and_firstMask_iff p).mp hfirst i hi]

/-- Settles O18: `dec` is a left inverse of the table, and a right inverse on the patterns that pass both masks. -/
theorem codewordsAreExactlyTheTable : Obligations.CodewordsAreExactlyTheTable := by
  refine ⟨fun p i hi => getLsbD_dec p hi, dec_lut, fun p => ⟨?_, ?_⟩, fun _ _ h => Function.LeftInverse.injective dec_lut h⟩
  · rintro ⟨hfirst, hlast⟩
    exact ⟨dec p, lut_dec hfirst hlast⟩
  · rintro ⟨v, rfl⟩
    exact ⟨lut_and_firstMask v, lut_and_lastMask v⟩

/-! ### The closed form of the table (R101) -/

/-- A term of the closed form is a data bit shifted to its place. -/
theorem shifted_bit_eq (v : Byte) (i q : Nat) :
    ((v.setWidth 24 >>> i) &&& 1#24) <<< q = if v.getLsbD i then 1#24 <<< q else 0#24 := by
  have hbit : (v.setWidth 24 >>> i).getLsbD 0 = v.getLsbD i := by
    rw [BitVec.getLsbD_ushiftRight, BitVec.getLsbD_setWidth, Nat.add_zero]
    by_cases hi : i < 24
    · simp [hi]
    · simp [hi, BitVec.getLsbD_of_ge v i (by omega)]
  rw [BitVec.and_one_eq_setWidth_ofBool_getLsbD, hbit]
  cases v.getLsbD i with
  | false => exact BitVec.zero_shiftLeft q
  | true => rfl

theorem middle_place_injective : Function.Injective fun i : Nat => 3 * i + 1 := fun _ _ h => by simpa using h

/-- The table's value is a 1 in front of each group and the data bits in the middle. -/
theorem lut_eq_or_placedSum (v : Byte) : lut v = 0x924924#24 ||| placedSum v.getLsbD (fun i => 3 * i + 1) 8 := by
  have hoff {j : Nat} (hj : j % 3 ≠ 1) := getLsbD_placedSum_off (w := 24) (b := v.getLsbD) middle_place_injective 8
    (j := j) fun i => by omega
  refine pattern_eq_iff.mpr fun i hi => ?_
  obtain ⟨hlast, hmiddle, hfirst⟩ := firstMask_bits i hi
  refine ⟨?_, ?_, ?_⟩
  · rw [BitVec.getLsbD_or, hlast, hoff (by omega), lut_last_bit v hi]; rfl
  · have hat := getLsbD_placedSum_at (w := 24) (b := v.getLsbD) middle_place_injective hi (by omega)
    rw [BitVec.getLsbD_or, hmiddle, hat, lut_middle_bit v hi, Bool.false_or]
  · rw [BitVec.getLsbD_or, hfirst, lut_first_bit v hi, Bool.true_or]

/-- Settles O17: each term of the sum is a data bit at the middle of its group. -/
theorem encodingTableClosedForm : Obligations.EncodingTableClosedForm := by
  intro v
  refine ⟨?_, fun i hi => ⟨lut_first_bit v hi, lut_middle_bit v hi, lut_last_bit v hi⟩, lut_and_firstMask v,
    lut_and_lastMask v⟩
  rw [lut_eq_or_placedSum]
  simp only [placedSum, ← shifted_bit_eq, BitVec.zero_add, Nat.reduceMul, Nat.reduceAdd]

/-! ### A command's word (R71, R74) -/

/-- Where an opcode's format has one reserved field, its word is illegal or the command. -/
theorem runCommand_of_unlessReserved {w : CommandWord} {lo n : Nat} {i : Instr}
    (h : decode w = unlessReserved w (field w lo n == 0) i) (s : State) :
    runCommand w s =
      if w.extractLsb' lo n ≠ 0#n then .next { s with status := 3, pc := s.pc + 1 } else exec i s := by
  split
  · next hset =>
    have hset : (field w lo n == 0) = false := beq_false_of_ne hset
    have hillegal : decode w = .illegal (.reservedField (opcodeOf w)) := by rw [h, hset]; rfl
    exact runCommand_of_illegal hillegal s
  · next hclear => exact runCommand_of_ok (h.trans (unlessReserved_of_clear (not_not.mp hclear) i)) s

/-! ### ENCODE, DECODE and PACK (R104 to R106) -/

theorem exec_encodeByte (v : Byte) (s : State) :
    exec (.encodeByte v) s = .next { s with result := (lut v).setWidth 32, status := 0, pc := s.pc + 1 } := rfl

theorem exec_decodePattern (p : Pattern) (s : State) :
    exec (.decodePattern p) s =
      .next { s with result := (dec p).setWidth 32, status := statusCode (patternStatus (isCodeword p)), pc := s.pc + 1 } :=
  rfl

theorem exec_pack (r g b x : Byte) (s : State) :
    exec (.pack r g b x) s = .next { s with result := packColor s.cfg.variant r g b x, status := 0, pc := s.pc + 1 } := rfl

/-- The upper part of a zero-extended value is 0. -/
theorem extractLsb'_setWidth_above {n m : Nat} (x : BitVec n) (k : Nat) : (x.setWidth m).extractLsb' n k = 0#k := by
  refine BitVec.eq_of_getLsbD_eq fun j _ => ?_
  simp

theorem getLsbD_setWidth_of_lt {n m j : Nat} (x : BitVec n) (hj : j < m) : (x.setWidth m).getLsbD j = x.getLsbD j := by
  simp [hj]

/-- Settles O19: RESULT is the zero-extended table entry, whose groups are the bits' patterns. -/
theorem encodeReturnsThePattern : Obligations.EncodeReturnsThePattern := by
  refine ⟨fun w s hop => runCommand_of_unlessReserved (decode_of_opcode_01 hop) s, fun v s => ?_⟩
  refine ⟨_, exec_encodeByte v s, rfl, extractLsb'_setWidth_above (lut v) 8, fun i hi => ⟨?_, ?_, ?_⟩⟩
  · rw [getLsbD_setWidth_of_lt _ (by omega), lut_first_bit v hi]
  · rw [getLsbD_setWidth_of_lt _ (by omega), lut_middle_bit v hi]
  · rw [getLsbD_setWidth_of_lt _ (by omega), lut_last_bit v hi]

/-- DECODE's status says whether the operand passes both masks. -/
theorem statusCode_patternStatus (p : Pattern) : statusCode (patternStatus (isCodeword p)) =
    if p &&& 0x924924#24 = 0x924924#24 ∧ p &&& 0x249249#24 = 0#24 then 0 else 6 := by
  have hiff : isCodeword p = true ↔ p &&& 0x924924#24 = 0x924924#24 ∧ p &&& 0x249249#24 = 0#24 := by simp [isCodeword]
  simp only [← hiff]
  cases isCodeword p <;> rfl

/-- Settles O20: RESULT is the zero-extended `dec p` whatever the status. -/
theorem decodeExtractsMiddleBits : Obligations.DecodeExtractsMiddleBits := by
  refine ⟨fun w s hop => runCommand_of_unlessReserved (decode_of_opcode_02 hop) s, fun p s => ?_⟩
  refine ⟨_, exec_decodePattern p s, rfl, statusCode_patternStatus p, extractLsb'_setWidth_above (dec p) 24, fun i hi => ?_⟩
  rw [getLsbD_setWidth_of_lt _ (by omega), getLsbD_dec p hi]

/-- Four bytes side by side are their shifts put together: each bit of the word lies in one of the four bytes. -/
theorem append_four_bytes (x r g b : Byte) : (x ++ r ++ g ++ b : Word32) =
    (x.setWidth 32 <<< 24) ||| (r.setWidth 32 <<< 16) ||| (g.setWidth 32 <<< 8) ||| b.setWidth 32 := by
  refine BitVec.eq_of_getLsbD_eq fun j hj => ?_
  simp only [BitVec.getLsbD_append, BitVec.getLsbD_or, BitVec.getLsbD_shiftLeft, BitVec.getLsbD_setWidth]
  obtain h | h | h | h : j < 8 ∨ (8 ≤ j ∧ j < 16) ∨ (16 ≤ j ∧ j < 24) ∨ 24 ≤ j := by omega
  all_goals grind

/-- Settles O21, by the two variants: in RGB the byte of the W channel is 0. -/
theorem packArrangesTheChannels : Obligations.PackArrangesTheChannels := by
  refine ⟨fun w s hop => runCommand_of_unlessReserved (decode_of_opcode_03 hop) s, fun r g b x s => ?_⟩
  rw [exec_pack]
  cases s.cfg.variant with
  | rgb => rw [packColor, append_four_bytes]; rfl
  | rgbw => rw [packColor, append_four_bytes]; rfl

end Sys2Proof.Machine
end

section
/-! The buffer commands of spec/41_buffer.md: the frame size, SETLEN, CLEAR, PIXCNT and TEARDOWN. -/

namespace Sys2Proof.Machine

/-! ### The frame size (R120) -/

theorem frameBytes_rgb (n : Nat) : frameBytes .rgb n = 9 * n + 2 := by
  simp only [frameBytes, channels]; omega

theorem frameBytes_rgbw (n : Nat) : frameBytes .rgbw n = 12 * n + 2 := by
  simp only [frameBytes, channels]; omega

/-- Settles O22: each variant's channel count makes the size linear in the count, and a count is below 2^16. -/
theorem frameSizeIsExact : Obligations.FrameSizeIsExact := by
  intro n
  refine ⟨frameBytes_rgb n.toNat, frameBytes_rgbw n.toNat, fun k => ⟨rfl, frameBytes_lt k n, ?_⟩⟩
  have hlt := frameBytes_lt k n
  omega

/-- FRAME_SIZE does not wrap in its 20 bits (R25). -/
theorem State.allocate_frameSize_toNat (s : State) (n : Count) :
    (s.allocate n).frameSize.toNat = frameBytes s.cfg.variant n.toNat :=
  toNat_ofNat_of_fits (frameBytes_lt s.cfg.variant n)

/-! ### SETLEN (R121) -/

theorem exec_setlen_of_fits {s : State} {n : Count} (hh : ¬ s.Held)
    (hfit : 2 * frameBytes s.cfg.variant n.toNat ≤ s.cfg.bufCap.val) :
    exec (.setlen n) s = .next { (s.checked .setlen).release.allocate n with status := 0, pc := s.pc + 1 } := by
  rw [exec_setlen_of_not_held n hh, if_pos hfit, complete_eq, State.allocate_pc, State.release_pc, State.checked_pc]

theorem exec_setlen_of_not_fits {s : State} {n : Count} (hh : ¬ s.Held)
    (hbig : s.cfg.bufCap.val < 2 * frameBytes s.cfg.variant n.toNat) :
    exec (.setlen n) s = .next { (s.checked .setlen).release with status := 2, pc := s.pc + 1 } := by
  rw [exec_setlen_of_not_held n hh, if_neg (Nat.not_le.mpr hbig), finish_eq, State.release_pc, State.checked_pc]
  rfl

/-- Settles O23, by whether both halves fit: SETLEN allocates over the released state, or leaves it released. -/
theorem setlenReallocatesAndClears : Obligations.SetlenReallocatesAndClears := by
  refine ⟨fun w s hop => runCommand_of_unlessReserved (decode_of_opcode_10 hop) s, ?_⟩
  intro n s fs hh hfs
  obtain rfl : fs = frameBytes s.cfg.variant n.toNat := hfs
  have hcfg : (s.checked .setlen).release.cfg = s.cfg := State.checked_cfg s .setlen
  constructor
  · intro hfit
    refine ⟨_, exec_setlen_of_fits hh hfit, rfl, ?_, fun a => ?_⟩
    · rw [State.allocate_frameSize_toNat, hcfg]
    · rw [allocate_read, hcfg]
  · intro hbig
    exact ⟨_, exec_setlen_of_not_fits hh hbig, rfl, fun _ => rfl⟩

/-! ### CLEAR (R122) -/

theorem exec_clear_of_disabled {s : State} (hv : s.valid = false) :
    exec .clear s = .next { s with status := 0, pc := s.pc + 1 } := by
  rw [exec, execClear, if_neg (Bool.eq_false_iff.mp hv), complete_eq]

theorem exec_clear_of_valid {s : State} (hv : s.valid = true) :
    exec .clear s = .next { s with
      ram := Memory.writeBytes s.ram (s.slot s.active 0) (clearedSlots s.cfg.variant s.n.toNat)
      status := 0, pc := s.pc + 1 } := by
  rw [exec, execClear, if_pos hv]
  rfl

/-- The slots of a half follow one another from slot 0 on (R52). -/
theorem slot_eq_slot_zero_add (s : State) (h : Half) (i : Nat) :
    s.slot h i = s.slot h 0 + i * (3 * channels s.cfg.variant) := by
  rw [slot_eq s h i, slot_eq s h 0, Nat.zero_mul, Nat.add_zero]

/-- Channel `k` of pixel `i` lies at triplet `i * c + k` of the cleared slots, which is one of the `n * c`. -/
theorem read_writeBytes_clearedSlots {m : Memory} {a n i k j : Nat} {v : Variant} (hi : i < n) (hk : k < channels v)
    (hj : j < 3) :
    Memory.read (Memory.writeBytes m a (clearedSlots v n)) (a + i * (3 * channels v) + 3 * k + j) =
      some ((lut 0).extractLsb' (16 - 8 * j) 8) := by
  have hq : i * channels v + k < n * channels v := by
    calc i * channels v + k < i * channels v + channels v := by omega
      _ = (i + 1) * channels v := (Nat.succ_mul ..).symm
      _ ≤ n * channels v := Nat.mul_le_mul_right _ hi
  have hplace : a + i * (3 * channels v) + 3 * k + j = a + (3 * (i * channels v + k) + j) := by ring
  have hlen : 3 * (i * channels v + k) + j < (clearedSlots v n).length := by rw [clearedSlots_length]; omega
  rw [hplace, Memory.read_writeBytes_inside hlen, ← List.getElem?_eq_getElem hlen, clearedSlots_getElem? v n hq hj]

/-- Settles O24: enabled, one write of `N * c` cleared triplets from slot 0 on; disabled, no write. -/
theorem clearResetsTheActiveSlots : Obligations.ClearResetsTheActiveSlots := by
  refine ⟨fun w s hop => runCommand_of_unlessReserved (decode_of_opcode_11 hop) s, fun s => ?_⟩
  by_cases hv : s.valid = true
  · refine ⟨_, exec_clear_of_valid hv, rfl, fun hd => absurd hv (Bool.eq_false_iff.mp hd),
      fun _ => ⟨fun i k j hi hk hj => ?_, fun a ha => ?_⟩⟩
    · rw [slot_eq_slot_zero_add s s.active i]
      exact read_writeBytes_clearedSlots hi hk hj
    · refine Memory.read_writeBytes_outside ?_
      rwa [clearedSlots_length, Nat.mul_left_comm]
  · exact ⟨_, exec_clear_of_disabled (Bool.eq_false_iff.mpr hv), rfl, fun _ => rfl, fun hv' => absurd hv' hv⟩

/-! ### PIXCNT (R124) and TEARDOWN (R123) -/

theorem exec_pixcnt (s : State) :
    exec .pixcnt s = .next { s with result := s.n.setWidth 32, status := 0, pc := s.pc + 1 } := rfl

/-- Settles O25: the count's 16 bits fit RESULT's 32. -/
theorem pixcntReturnsTheCount : Obligations.PixcntReturnsTheCount := by
  refine ⟨fun w s hop => runCommand_of_unlessReserved (decode_of_opcode_12 hop) s, fun s => ?_⟩
  exact ⟨_, exec_pixcnt s, rfl, BitVec.toNat_setWidth_of_le (by decide)⟩

theorem exec_teardown {s : State} (hh : ¬ s.Held) :
    exec .teardown s = .next { (s.checked .teardown).release with begun := false, status := 0, pc := s.pc + 1 } := by
  rw [exec_teardown_of_not_held hh, complete_eq, State.setBegun_pc, State.release_pc, State.checked_pc]
  rfl

/-- Settles O26: TEARDOWN releases the buffer of the checked state and takes BEGUN back. -/
theorem teardownReleasesTheBuffer : Obligations.TeardownReleasesTheBuffer := by
  refine ⟨fun w s hop => runCommand_of_unlessReserved (decode_of_opcode_13 hop) s, fun s hh => ?_⟩
  exact ⟨_, exec_teardown hh, rfl, fun _ => rfl⟩

end Sys2Proof.Machine
end

section
/-! The pixel commands of spec/42_pixel.md: SETPIX and SETPIXP, the packed colour's fields, and what SETPIX, SETPIXP and CLEAR
leave as it was. -/

namespace Sys2Proof.Machine

/-! ### One pixel's slot (R140) -/

theorem setPixel_of_index_out_of_range {idx : Count} {s : State} (h : s.n.toNat ≤ idx.toNat) (r g b x : Byte) :
    setPixel idx r g b x s = .next { s with status := 1, pc := s.pc + 1 } := by
  have hge : ¬ idx < s.n := by rw [BitVec.lt_def]; omega
  rw [setPixel, if_neg hge, raise_eq]
  rfl

theorem setPixel_of_index_in_range {idx : Count} {s : State} (h : idx.toNat < s.n.toNat) (r g b x : Byte) :
    setPixel idx r g b x s = .next { s with
      ram := Memory.writeBytes s.ram (s.slot s.active idx.toNat) (slotBytes s.cfg.variant r g b x)
      status := 0, pc := s.pc + 1 } := by
  rw [setPixel, if_pos (BitVec.lt_def.mpr h), complete_eq]
  rfl

/-- Each channel's triplet stands in its place of the slot (R53). -/
theorem read_writeBytes_slotBytes_inside {m : Memory} {a k j : Nat} {v : Variant} (r g b x : Byte) (hk : k < channels v)
    (hj : j < 3) :
    Memory.read (Memory.writeBytes m a (slotBytes v r g b x)) (a + 3 * k + j) =
      some ((lut (channelAt r g b x k)).extractLsb' (16 - 8 * j) 8) := by
  have hlen : 3 * k + j < (slotBytes v r g b x).length := by rw [slotBytes_length]; omega
  rw [Nat.add_assoc, Memory.read_writeBytes_inside hlen, ← List.getElem?_eq_getElem hlen, slotBytes_getElem? v r g b x hk hj]

theorem read_writeBytes_slotBytes_outside {m : Memory} {a p : Nat} {v : Variant} (r g b x : Byte)
    (hp : p < a ∨ a + 3 * channels v ≤ p) :
    Memory.read (Memory.writeBytes m a (slotBytes v r g b x)) p = Memory.read m p :=
  Memory.read_writeBytes_outside (by rwa [slotBytes_length])

/-! ### SETPIX (R141) and SETPIXP (R142) -/

theorem exec_setpix (idx : Count) (r g b x : Byte) (s : State) : exec (.setpix idx r g b x) s = setPixel idx r g b x s := rfl

theorem exec_setpixp (idx : Count) (col : Word32) (s : State) :
    exec (.setpixp idx col) s = setPixel idx (colR col) (colG col) (colB col) (colW col) s := rfl

/-- Settles O27, by the index: below the count one slot is written, else nothing is. -/
theorem setpixWritesTheSlot : Obligations.SetpixWritesTheSlot := by
  refine ⟨fun w s hop => runCommand_of_unlessReserved (decode_of_opcode_20 hop) s, fun idx r g b x s => ?_⟩
  rw [exec_setpix]
  refine ⟨fun hge => setPixel_of_index_out_of_range hge r g b x, fun hlt => ?_⟩
  exact ⟨_, setPixel_of_index_in_range hlt r g b x, rfl,
    fun k j hk hj => read_writeBytes_slotBytes_inside r g b x hk hj,
    fun a ha => read_writeBytes_slotBytes_outside r g b x ha⟩

theorem colR_eq_shift (col : Word32) : colR col = (col >>> 16).setWidth 8 := BitVec.setWidth_ushiftRight_eq_extractLsb.symm

theorem colG_eq_shift (col : Word32) : colG col = (col >>> 8).setWidth 8 := BitVec.setWidth_ushiftRight_eq_extractLsb.symm

theorem colB_eq_setWidth (col : Word32) : colB col = col.setWidth 8 := (BitVec.setWidth_eq_extractLsb' (by decide)).symm

theorem colW_eq_shift (col : Word32) : colW col = (col >>> 24).setWidth 8 := BitVec.setWidth_ushiftRight_eq_extractLsb.symm

/-- Settles O28: SETPIXP sets the pixel as SETPIX does, to the channels that the shifts take out of the colour. -/
theorem setpixpWritesTheUnpackedColour : Obligations.SetpixpWritesTheUnpackedColour := by
  refine ⟨fun w s hop => runCommand_of_unlessReserved (decode_of_opcode_21 hop) s, fun idx col s => ?_⟩
  rw [exec_setpixp, ← colR_eq_shift, ← colG_eq_shift, ← colB_eq_setWidth, ← colW_eq_shift]
  refine ⟨fun hge => setPixel_of_index_out_of_range hge _ _ _ _, fun hlt => ?_⟩
  exact ⟨_, setPixel_of_index_in_range hlt _ _ _ _, rfl,
    fun k j hk hj => read_writeBytes_slotBytes_inside _ _ _ _ hk hj,
    fun a ha => read_writeBytes_slotBytes_outside _ _ _ _ ha⟩

/-! ### Packing and unpacking (R143) -/

/-- The fields of four bytes side by side are the bytes (R55). -/
theorem fields_append_four_bytes (x r g b : Byte) :
    colR (x ++ r ++ g ++ b) = r ∧ colG (x ++ r ++ g ++ b) = g ∧ colB (x ++ r ++ g ++ b) = b ∧
      colW (x ++ r ++ g ++ b) = x := by
  refine ⟨?_, ?_, BitVec.extractLsb'_append_eq_right, ?_⟩
  · rw [colR, BitVec.extractLsb'_append_eq_of_le (by decide), BitVec.extractLsb'_append_eq_of_le (by decide)]
    exact BitVec.extractLsb'_append_eq_right
  · rw [colG, BitVec.extractLsb'_append_eq_of_le (by decide)]
    exact BitVec.extractLsb'_append_eq_right
  · rw [colW, BitVec.extractLsb'_append_eq_of_le (by decide), BitVec.extractLsb'_append_eq_of_le (by decide)]
    exact BitVec.extractLsb'_append_eq_left

/-- A packed colour stands for the slot bytes of its channels: RGB loses the W channel, which no RGB slot holds. -/
theorem slotBytes_fields_packColor (v : Variant) (r g b x : Byte) :
    slotBytes v (colR (packColor v r g b x)) (colG (packColor v r g b x)) (colB (packColor v r g b x))
      (colW (packColor v r g b x)) = slotBytes v r g b x := by
  cases v with
  | rgb =>
    obtain ⟨hr, hg, hb, -⟩ := fields_append_four_bytes 0#8 r g b
    rw [packColor, hr, hg, hb]
    rfl
  | rgbw =>
    obtain ⟨hr, hg, hb, hw⟩ := fields_append_four_bytes x r g b
    rw [packColor, hr, hg, hb, hw]

/-- Settles O29, by the index: both commands refuse it, or both write the same slot bytes. -/
theorem packedAndExplicitChannelsMatch : Obligations.PackedAndExplicitChannelsMatch := by
  intro idx r g b x s t ht
  rw [exec_pack] at ht
  cases ht
  rw [exec_setpixp, exec_setpix]
  obtain hge | hlt := le_or_gt s.n.toNat idx.toNat
  · rw [setPixel_of_index_out_of_range hge, setPixel_of_index_out_of_range hge]
  · rw [setPixel_of_index_in_range hlt, setPixel_of_index_in_range hlt, slotBytes_fields_packColor]

/-! ### Outside the active half's slots (R140, R122) -/

/-- An address with no slot byte of half `h`: up to the preamble, or from the trailer on. -/
def State.OutsideSlots (s : State) (h : Half) (a : Nat) : Prop := a ≤ s.base h ∨ s.base h + s.fs - 1 ≤ a

theorem setPixel_reads_outsideSlots {idx : Count} {r g b x : Byte} {s t : State}
    (hfs : s.fs = frameBytes s.cfg.variant s.n.toNat) (h : setPixel idx r g b x s = .next t) {a : Nat}
    (ha : s.OutsideSlots s.active a) : Memory.read t.ram a = Memory.read s.ram a := by
  obtain ⟨-, rfl⟩ | ⟨hlt, rfl⟩ := setPixel_next h
  · rfl
  · have hbounds := slot_bounds hfs s.active hlt
    unfold State.OutsideSlots at ha
    exact read_writeBytes_slotBytes_outside r g b x (by omega)

theorem execClear_reads_outsideSlots {s t : State} (hfs : s.fs = frameBytes s.cfg.variant s.n.toNat)
    (h : execClear s = .next t) {a : Nat} (ha : s.OutsideSlots s.active a) :
    Memory.read t.ram a = Memory.read s.ram a := by
  obtain ⟨-, rfl⟩ | ⟨-, rfl⟩ := execClear_next h
  · rfl
  · unfold State.OutsideSlots at ha
    rw [hfs, frameBytes] at ha
    refine Memory.read_writeBytes_outside ?_
    rw [clearedSlots_length, slot_eq]
    omega

/-- The inactive half holds no slot byte of the active one. -/
theorem State.outsideSlots_other (s : State) (h : Half) {o : Nat} (ho : o < s.fs) :
    s.OutsideSlots h (s.base h.other + o) := by
  have hdisj := halves_disjoint s h.other (a := s.base h.other + o) (by omega) (by omega)
  rw [Half.other_other] at hdisj
  unfold State.OutsideSlots
  omega

theorem State.outsideSlots_of_unallocated (s : State) (h : Half) {a : Nat} (ha : 2 * s.fs ≤ a) : s.OutsideSlots h a := by
  have hbase := base_le_fs s h
  unfold State.OutsideSlots
  omega

/-- No address from the end of the DoubleBuffer on holds a value (R31). -/
theorem Inv.read_unallocated {s : State} (hi : Inv s) {a : Nat} (ha : 2 * s.fs ≤ a) : Memory.read s.ram a = none := by
  rw [← Option.isNone_iff_eq_none, ← Option.not_isSome, hi.ram.2 a]
  simp [ha]

/-- Settles O30: each place it names lies outside the active half's slots, and there the three commands write nothing. -/
theorem pixelCommandsKeepTheInactiveHalf : Obligations.PixelCommandsKeepTheInactiveHalf := by
  intro s t i hi hv hcommand hexec
  have hfs := (hi.enabled hv).1
  have hkept : ∀ a, s.OutsideSlots s.active a → Memory.read t.ram a = Memory.read s.ram a := by
    intro a ha
    obtain rfl | ⟨n, r, g, b, x, rfl⟩ | ⟨n, c, rfl⟩ := hcommand
    · exact execClear_reads_outsideSlots hfs hexec ha
    · exact setPixel_reads_outsideSlots hfs hexec ha
    · exact setPixel_reads_outsideSlots hfs hexec ha
  refine ⟨fun o ho => hkept _ (s.outsideSlots_other s.active ho), hkept _ (.inl le_rfl), hkept _ (.inr le_rfl),
    fun a ha => ?_⟩
  rw [hkept a (s.outsideSlots_of_unallocated s.active ha), hi.read_unallocated ha]

end Sys2Proof.Machine
end

section
/-! The transmission commands of spec/43_transmit.md: BEGIN, and a SHOW that passes its checks. -/

namespace Sys2Proof.Machine

/-! ### BEGIN (R161) -/

theorem exec_beginTransport_of_not_begun {s : State} (hb : s.begun = false) :
    exec .beginTransport s =
      .next { s with begun := true, events := s.events ++ [.transportInit], status := 0, pc := s.pc + 1 } := by
  rw [exec, execBeginTransport, if_neg (by simp [hb]), complete_eq]; rfl

theorem exec_beginTransport_of_begun {s : State} (hb : s.begun = true) :
    exec .beginTransport s = .next { s with status := 0, pc := s.pc + 1 } := by
  rw [exec, execBeginTransport, if_pos hb, complete_eq]

/-- Settles O31, by BEGUN: the first BEGIN asks for the initialisation and a second finds it done. -/
theorem beginInitialisesTheTransportOnce : Obligations.BeginInitialisesTheTransportOnce :=
  ⟨fun _ s hop => runCommand_of_unlessReserved (decode_of_opcode_30 hop) s,
    fun _ => ⟨exec_beginTransport_of_not_begun, exec_beginTransport_of_begun⟩⟩

/-! ### SHOW (R162, R166) -/

theorem Half.other_eq_ite (h : Half) : h.other = if h = .a then .b else .a := by cases h <;> rfl

/-- A SHOW that passes its checks and is not held (R162), from the RAM its clone copy leaves. -/
theorem exec_showFrame_accepted {s : State} {clone : Bool} {m : Memory} (hb : s.begun = true) (hv : s.valid = true)
    (hh : ¬ s.Held)
    (hm : clone = false ∧ m = s.ram ∨
      clone = true ∧ Memory.copy s.ram (s.base s.active.other) (s.base s.active) s.fs = some m) :
    exec (.showFrame clone) s = .next { s.checked .showFrame with
      active := s.active.other
      tx := .busy { half := s.active, base := BitVec.ofNat 21 (s.base s.active), len := s.frameSize, pos := 0, bytes := [] }
      events := s.events ++ [.transferStart (BitVec.ofNat 21 (s.base s.active)) s.frameSize]
      ram := m, status := 0, pc := s.pc + 1 } := by
  rw [exec_showFrame_of_not_held clone hb hv hh, State.checked_eq]
  obtain ⟨rfl, rfl⟩ | ⟨rfl, hm⟩ := hm
  · rfl
  · simp only [sendFrame, if_true]
    split
    · next m' hm' =>
      obtain rfl : m' = m := Option.some.inj (hm'.symm.trans hm)
      rfl
    · next hnone => exact absurd (hnone.symm.trans hm) (by simp)

/-- Settles O33: the accepted SHOW whose RAM is what it was. -/
theorem showSendsAndFlips : Obligations.ShowSendsAndFlips := by
  intro s hb hv hh
  rw [exec_showFrame_accepted (m := (s.checked .showFrame).ram) hb hv hh (.inl ⟨rfl, State.checked_ram s .showFrame⟩),
    Half.other_eq_ite]

/-- The clone copy goes on wherever the sent half holds values (R164). -/
theorem exists_copy_of_readBytes {s : State} {bytes : List Byte} (h : Memory.readBytes s.ram (s.base s.active) s.fs = some bytes) :
    ∃ m, Memory.copy s.ram (s.base s.active.other) (s.base s.active) s.fs = some m :=
  ⟨_, (Memory.copy_eq_some_iff ..).mpr ⟨bytes, h, rfl⟩⟩

/-- After the clone copy each half holds the bytes of the sent one. -/
theorem readBytes_half_of_copy {s : State} {m : Memory} {bytes : List Byte}
    (hm : Memory.copy s.ram (s.base s.active.other) (s.base s.active) s.fs = some m)
    (hsent : Memory.readBytes s.ram (s.base s.active) s.fs = some bytes) (h : Half) :
    Memory.readBytes m (s.base h) s.fs = some bytes :=
  Memory.readBytes_of_reads (Memory.length_of_readBytes hsent) fun _ hj =>
    (read_half_of_copy hm h hj).trans (Memory.read_of_readBytes hsent hj)

/-- Settles O34: the accepted SHOW whose RAM is the clone copy's. -/
theorem showCloneCopiesTheSentHalf : Obligations.ShowCloneCopiesTheSentHalf := by
  intro s bytes hb hv hh hsent
  obtain ⟨m, hm⟩ := exists_copy_of_readBytes hsent
  refine ⟨_, exec_showFrame_accepted hb hv hh (.inr ⟨rfl, hm⟩), ?_, readBytes_half_of_copy hm hsent s.active.other,
    fun a ha => Memory.read_copy_outside hm ha⟩
  rw [Half.other_eq_ite]

/-- What is seen of a half of an enabled block, at the place that a frame size gives it. -/
theorem observeHalf_of_readBytes {s t : State} {h : Half} {bytes : List Byte} (hv : t.valid = true)
    (hfs : t.frameSize = s.frameSize) (hread : Memory.readBytes t.ram (s.base h) s.fs = some bytes) :
    t.observeHalf h = some bytes := by
  rw [← hread]; simp [State.observeHalf, hv, State.base, State.fs, hfs]

/-- Settles O35, by the clone bit: both halves hold values, so the copy goes on, and without it RAM stays. -/
theorem cloneMakesTheHalvesEqual : Obligations.CloneMakesTheHalvesEqual := by
  intro s clone hi hb hv hh
  obtain ⟨sent, hsent⟩ := hi.half_readable hv s.active
  obtain ⟨other, hother⟩ := hi.half_readable hv s.active.other
  have hv' : (s.checked .showFrame).valid = true := by rw [State.checked_valid, hv]
  have hfs' : (s.checked .showFrame).frameSize = s.frameSize := State.checked_frameSize s .showFrame
  have hs {h : Half} {bytes : List Byte} : Memory.readBytes s.ram (s.base h) s.fs = some bytes → s.observeHalf h = some bytes :=
    observeHalf_of_readBytes hv rfl
  cases clone with
  | false =>
    exact ⟨_, exec_showFrame_accepted hb hv hh (.inl ⟨rfl, rfl⟩), rfl, rfl, sent, other, hs hsent, hs hother,
      observeHalf_of_readBytes hv' hfs' hsent, observeHalf_of_readBytes hv' hfs' hother, fun _ _ => rfl⟩
  | true =>
    obtain ⟨m, hm⟩ := exists_copy_of_readBytes hsent
    exact ⟨_, exec_showFrame_accepted hb hv hh (.inr ⟨rfl, hm⟩), rfl, rfl, sent, other, hs hsent, hs hother,
      observeHalf_of_readBytes hv' hfs' (readBytes_half_of_copy hm hsent s.active),
      observeHalf_of_readBytes hv' hfs' (readBytes_half_of_copy hm hsent s.active.other),
      fun a ha => Memory.read_copy_outside hm (ha.resolve_left (by simp))⟩

end Sys2Proof.Machine
end

section
/-! The Transport's two steps (spec/43_transmit.md R169 to R171). -/

namespace Sys2Proof.Machine

/-- A transport step with a byte left to read, which holds a value (R170). -/
theorem transportStep_of_read {s : State} {x : Transfer} {v : Byte} (htx : s.tx = .busy x) (hpos : x.pos < x.len.toNat)
    (hv : Memory.read s.ram (x.base.toNat + x.pos) = some v) :
    transportStep s = .next (s.setTx (.busy { x with pos := x.pos + 1, bytes := x.bytes ++ [v] })) := by
  simp [transportStep, htx, hpos, readStep, hv]

/-- Settles O41, by the three cases of the transfer: none, a byte left to read, and none left. -/
theorem transportReadsOneByte : Obligations.TransportReadsOneByte := by
  refine fun s => ⟨fun htx t => ?_, fun x v htx hpos hv => transportStep_of_read htx hpos hv, fun x htx hpos => ?_⟩
  · simp [transportStep_of_idle htx]
  · exact ⟨_, transportStep_of_ended htx hpos.ge, rfl⟩

/-- Settles O43: the outcome is the next draw, and the event it makes of the transfer is the one appended. -/
theorem transferEndsWithADraw : Obligations.TransferEndsWithADraw := by
  intro s x htx hpos
  have hevents : ((s.dropDraw.emit (wireFrameOf x s.nextDraw)).setTx .idle).events =
      s.events ++ [wireFrameOf x s.nextDraw] := by simp
  have hend := transportStep_of_ended htx hpos.ge
  refine ⟨s.nextDraw, _, hend, transportStep_frame hend, fun hok => ?_, fun k hfail => ?_⟩
  · rw [hevents, hok, wireFrameOf]
  · rw [hevents, hfail, wireFrameOf]

end Sys2Proof.Machine
end

section
/-! A frame on the line (spec/43_transmit.md R172): the bytes of an allocated half, and each byte's bits. -/

namespace Sys2Proof.Machine

/-! ### The bits of a list of bytes (R56) -/

theorem byteBits_length (v : Byte) : (byteBits v).length = 8 := rfl

theorem byteBits_getElem? (v : Byte) {j : Nat} (hj : j < 8) : (byteBits v)[j]? = some (v.getLsbD (7 - j)) := by
  interval_cases j <;> rfl

theorem wireBits_cons (v : Byte) (vs : List Byte) : wireBits (v :: vs) = byteBits v ++ wireBits vs := List.flatMap_cons

theorem wireBits_append (vs ws : List Byte) : wireBits (vs ++ ws) = wireBits vs ++ wireBits ws := List.flatMap_append

theorem wireBits_flatMap (f : Byte → List Byte) (vs : List Byte) :
    wireBits (vs.flatMap f) = vs.flatMap fun v => wireBits (f v) := List.flatMap_assoc

theorem wireBits_getElem? (bytes : List Byte) (j : Nat) :
    (wireBits bytes)[j]? = (bytes[j / 8]?).map fun v => v.getLsbD (7 - j % 8) := by
  induction bytes generalizing j with
  | nil => simp [wireBits]
  | cons v vs ih =>
    rw [wireBits_cons]
    obtain hj | ⟨d, rfl⟩ : j < 8 ∨ ∃ d, j = d + 8 := by
      obtain hj | hj := Nat.lt_or_ge j 8
      · exact .inl hj
      · exact .inr ⟨j - 8, by omega⟩
    · rw [List.getElem?_append_left hj, byteBits_getElem? v hj, Nat.div_eq_of_lt hj, Nat.mod_eq_of_lt hj]; rfl
    · rw [List.getElem?_append_right (by rw [byteBits_length]; omega), byteBits_length, Nat.add_sub_cancel, ih,
        Nat.add_div_right d (by omega), Nat.add_mod_right]; rfl

theorem wireBits_tripletBytes (p : Pattern) : wireBits (tripletBytes p) = patternBits p := by
  refine List.ext_getElem? fun j => ?_
  rw [wireBits_getElem?]
  by_cases hj : j < 24
  · have hbit : 16 - 8 * (j / 8) + (7 - j % 8) = 23 - j := by omega
    have hlow : 7 - j % 8 < 8 := by omega
    rw [tripletBytes_getElem? p (by omega)]
    simp [patternBits, hj, hbit, hlow]
  · rw [List.getElem?_eq_none (by rw [tripletBytes_length]; omega), List.getElem?_eq_none (by simp [patternBits]; omega)]
    rfl

/-! ### The bytes of an allocated half (R52, R53) -/

/-- A frame as its channels' bytes make it: preamble, triplets, trailer. -/
def frameOf (vals : List Byte) : List Byte := 0#8 :: (vals.flatMap (fun v => tripletBytes (lut v)) ++ [0#8])

theorem wireBits_frameOf (vals : List Byte) : wireBits (frameOf vals) =
    List.replicate 8 false ++ vals.flatMap (fun v => patternBits (lut v)) ++ List.replicate 8 false := by
  rw [frameOf, wireBits_cons, wireBits_append, wireBits_flatMap, ← List.append_assoc]
  simp only [wireBits_tripletBytes]
  rfl

theorem Memory.readBytes_append {m : Memory} {a k l : Nat} {vs ws : List Byte} (hvs : Memory.readBytes m a k = some vs)
    (hws : Memory.readBytes m (a + k) l = some ws) : Memory.readBytes m a (k + l) = some (vs ++ ws) := by
  have hk := Memory.length_of_readBytes hvs
  refine Memory.readBytes_of_reads (by simp [hk, Memory.length_of_readBytes hws]) fun j hj => ?_
  obtain hjk | ⟨d, rfl⟩ : j < k ∨ ∃ d, j = k + d := (Nat.lt_or_ge j k).imp_right Nat.exists_eq_add_of_le
  · rw [Memory.read_of_readBytes hvs hjk, List.getElem?_append_left (by omega)]
  · rw [← Nat.add_assoc, Memory.read_of_readBytes hws (by omega), List.getElem?_append_right (by omega), hk,
      Nat.add_sub_cancel_left]

theorem Memory.readBytes_one {m : Memory} {a : Nat} {v : Byte} (h : Memory.read m a = some v) :
    Memory.readBytes m a 1 = some [v] := by simp [Memory.readBytes, h]

/-- Triplets side by side are read as one list. -/
theorem Memory.readBytes_triplets {m : Memory} {a : Nat} {vals : List Byte}
    (h : ∀ q v, vals[q]? = some v → Memory.readBytes m (a + 3 * q) 3 = some (tripletBytes (lut v))) :
    Memory.readBytes m a (3 * vals.length) = some (vals.flatMap fun v => tripletBytes (lut v)) := by
  induction vals generalizing a with
  | nil => rfl
  | cons v vs ih =>
    have htail := ih (a := a + 3) fun q v hv => by
      simpa [Nat.mul_add, Nat.add_assoc, Nat.add_comm 3] using h (q + 1) v (by simpa using hv)
    rw [List.length_cons, Nat.mul_succ, Nat.add_comm, List.flatMap_cons]
    exact Memory.readBytes_append (h 0 v rfl) htail

/-- Channel `k` of pixel `i` is the half's triplet `i * c + k`. -/
theorem slot_add_eq (s : State) (h : Half) (i k : Nat) :
    s.slot h i + 3 * k = s.base h + 1 + 3 * (i * channels s.cfg.variant + k) := by
  rw [slot_eq]; ring

/-- The channel values that an allocated half encodes (R37). -/
theorem Inv.exists_channel_values {s : State} (hi : Inv s) (hv : s.valid = true) (h : Half) :
    ∃ vals : List Byte, vals.length = s.n.toNat * channels s.cfg.variant ∧ ∀ q v, vals[q]? = some v →
      Memory.readBytes s.ram (s.base h + 1 + 3 * q) 3 = some (tripletBytes (lut v)) := by
  have hc : 0 < channels s.cfg.variant := by obtain hc | hc := channels_cases s.cfg.variant <;> omega
  have hvalue : ∀ q : Fin (s.n.toNat * channels s.cfg.variant), ∃ v : Byte,
      Memory.readBytes s.ram (s.base h + 1 + 3 * q) 3 = some (tripletBytes (lut v)) := by
    intro q
    have hpixel : q.val / channels s.cfg.variant < s.n.toNat := (Nat.div_lt_iff_lt_mul hc).mpr q.isLt
    have hword := hi.codewords hv h _ hpixel _ (Nat.mod_lt q.val hc)
    rwa [slot_add_eq, Nat.div_add_mod'] at hword
  choose f hf using hvalue
  refine ⟨List.ofFn f, List.length_ofFn, fun q v hq => ?_⟩
  obtain ⟨hlt, rfl⟩ := List.getElem?_eq_some_iff.mp hq
  rw [List.getElem_ofFn]
  exact hf ⟨q, by simpa using hlt⟩

/-- An allocated half holds the frame of its channel values. -/
theorem Inv.readBytes_frameOf {s : State} (hi : Inv s) (hv : s.valid = true) (h : Half) {vals : List Byte}
    (hlen : vals.length = s.n.toNat * channels s.cfg.variant)
    (hvals : ∀ q v, vals[q]? = some v → Memory.readBytes s.ram (s.base h + 1 + 3 * q) 3 = some (tripletBytes (lut v))) :
    Memory.readBytes s.ram (s.base h) s.fs = some (frameOf vals) := by
  obtain ⟨hpre, htrail⟩ := hi.bracketed hv h
  have hfs : s.fs = 1 + (3 * vals.length + 1) := by rw [(hi.enabled hv).1, frameBytes, hlen]; ring
  have hend : s.base h + 1 + 3 * vals.length = s.base h + s.fs - 1 := by omega
  rw [hfs]
  refine Memory.readBytes_append (Memory.readBytes_one hpre) (Memory.readBytes_append (Memory.readBytes_triplets hvals) ?_)
  rw [hend]
  exact Memory.readBytes_one htrail

/-- Settles O46: a half's bytes are the frame of its channel values, whose bits are the patterns between the brackets. -/
theorem frameOnTheLine : Obligations.FrameOnTheLine := by
  refine ⟨wireBits_getElem?, fun s h hi hv => ?_⟩
  obtain ⟨vals, hlen, hvals⟩ := hi.exists_channel_values hv h
  refine ⟨frameOf vals, vals, observeHalf_of_readBytes hv rfl (hi.readBytes_frameOf hv h hlen hvals), hlen,
    fun i k v _ _ hq => ?_, wireBits_frameOf vals⟩
  rw [slot_add_eq]
  exact hvals _ v hq

end Sys2Proof.Machine
end

section
/-! What a completed command does not look at: the history, the model's inputs and, unless the contract restricts it, the
transfer in flight. -/

namespace Sys2Proof.Machine

/-! ### The command that a completion is of -/

theorem Completes.exec_eq {s t : State} {i : Instr} (h : Completes s i t) : exec i s = .next t := by
  cases h with
  | encodeByte | decodePattern | pack | pixcnt => rfl
  | clearDisabled hv => exact exec_clear_of_disabled hv
  | clear hv => exact exec_clear_of_valid hv
  | setpixIndex r g b w hidx => exact setPixel_of_index_out_of_range hidx r g b w
  | setpix r g b w hidx => exact setPixel_of_index_in_range hidx r g b w
  | setpixpIndex col hidx => exact setPixel_of_index_out_of_range hidx (colR col) (colG col) (colB col) (colW col)
  | setpixp col hidx => exact setPixel_of_index_in_range hidx (colR col) (colG col) (colB col) (colW col)
  | beginAgain hb => exact exec_beginTransport_of_begun hb
  | beginFirst hb => exact exec_beginTransport_of_not_begun hb
  | setlen hh hfit => exact exec_setlen_of_fits hh hfit
  | setlenAlloc hh hbig => exact exec_setlen_of_not_fits hh hbig
  | teardown hh => exact exec_teardown hh
  | showNotBegun clone hb => rw [exec, execShowFrame, if_pos (by simp [hb]), raise_eq]; rfl
  | showDisabled clone hb hv => rw [exec, execShowFrame, if_neg (by simp [hb]), if_pos (by simp [hv]), raise_eq]; rfl
  | showFrame hh hb hv hm => exact exec_showFrame_accepted hb hv hh hm

theorem Completes.runCommand_eq {s t : State} {i : Instr} {w : CommandWord} (h : Completes s i t) (hd : decode w = .ok i) :
    runCommand w s = .next t := by
  rw [runCommand_of_ok hd, h.exec_eq]

/-- A command that goes on is restricted, held and the Transport's step, or it completes. -/
theorem exec_next_held_or_completes {i : Instr} {s t : State} (h : exec i s = .next t) :
    (s.Held ∧ (∃ op, restriction i = some op ∧ (op = .showFrame → s.begun = true ∧ s.valid = true)) ∧
      transportStep s = .next t) ∨ Completes s i t := by
  obtain ⟨hheld, htr⟩ | hc := exec_next_completes h
  · obtain ⟨-, -, op, hop⟩ | ⟨hpc, -⟩ := exec_next h
    · cases i with
      | setlen n => exact .inl ⟨hheld, ⟨.setlen, rfl, by simp⟩, htr⟩
      | teardown => exact .inl ⟨hheld, ⟨.teardown, rfl, by simp⟩, htr⟩
      | showFrame clone =>
        obtain ⟨hb, rfl⟩ | ⟨hb, hv, rfl⟩ | ⟨hb, hv, -⟩ := execShowFrame_of_held hheld h
        · exact .inr (.showNotBegun clone hb)
        · exact .inr (.showDisabled clone hb hv)
        · exact .inl ⟨hheld, ⟨.showFrame, rfl, fun _ => ⟨hb, hv⟩⟩, htr⟩
      | _ => cases hop
    · exact absurd hpc (by rw [transportStep_frame htr]; simp)
  · exact .inr hc

/-- No command uses up an input of the model. -/
theorem Completes.inputs {s t : State} {i : Instr} (h : Completes s i t) :
    t.schedule = s.schedule ∧ t.draws = s.draws ∧ t.drawCount = s.drawCount := by
  cases h <;> simp

/-! ### The history and the inputs -/

/-- The state `s` with the history and the model's inputs of `o`. -/
def State.within (s o : State) : State :=
  { s with events := o.events, schedule := o.schedule, draws := o.draws, drawCount := o.drawCount }

theorem State.checked_within (s o : State) (op : ContractOp) : (s.within o).checked op = (s.checked op).within o := by
  by_cases htx : s.tx = .idle
  · rw [State.checked_of_idle htx, State.checked_of_idle (s := s.within o) htx]
  · rw [State.checked, if_neg (show (s.within o).tx ≠ .idle from htx), State.checked, if_neg htx]; rfl

/-- The command completes, appending `es`: the same events whatever the history is, and its other effects depend neither on the
history nor on the inputs. -/
structure CompletesAppending (s : State) (i : Instr) (t : State) (es : List Event) : Prop where
  events : t.events = s.events ++ es
  within : ∀ o : State, Completes (s.within o) i (t.within { o with events := o.events ++ es })

theorem exists_appending_of_silent {s t : State} {i : Instr} (hev : t.events = s.events)
    (hc : ∀ o : State, Completes (s.within o) i (t.within o)) : ∃ es, CompletesAppending s i t es :=
  ⟨[], by simp [hev], fun o => by simpa using hc o⟩

theorem Completes.appending {s t : State} {i : Instr} (h : Completes s i t) : ∃ es, CompletesAppending s i t es := by
  cases h with
  | encodeByte v => exact exists_appending_of_silent rfl fun o => .encodeByte v
  | decodePattern p => exact exists_appending_of_silent rfl fun o => .decodePattern p
  | pack r g b w => exact exists_appending_of_silent rfl fun o => .pack r g b w
  | pixcnt => exact exists_appending_of_silent rfl fun o => .pixcnt
  | clearDisabled hv => exact exists_appending_of_silent rfl fun o => .clearDisabled hv
  | clear hv => exact exists_appending_of_silent rfl fun o => .clear hv
  | setpixIndex r g b w hidx => exact exists_appending_of_silent rfl fun o => .setpixIndex r g b w hidx
  | setpix r g b w hidx => exact exists_appending_of_silent rfl fun o => .setpix r g b w hidx
  | setpixpIndex col hidx => exact exists_appending_of_silent rfl fun o => .setpixpIndex col hidx
  | setpixp col hidx => exact exists_appending_of_silent rfl fun o => .setpixp col hidx
  | beginAgain hb => exact exists_appending_of_silent rfl fun o => .beginAgain hb
  | beginFirst hb => exact ⟨[.transportInit], rfl, fun o => .beginFirst hb⟩
  | setlen hh hfit =>
    exact exists_appending_of_silent (by simp) fun o => by
      have hc := Completes.setlen (s := s.within o) hh hfit
      rwa [State.checked_within] at hc
  | setlenAlloc hh hbig =>
    exact exists_appending_of_silent (by simp) fun o => by
      have hc := Completes.setlenAlloc (s := s.within o) hh hbig
      rwa [State.checked_within] at hc
  | teardown hh =>
    exact exists_appending_of_silent (by simp) fun o => by
      have hc := Completes.teardown (s := s.within o) hh
      rwa [State.checked_within] at hc
  | showNotBegun clone hb => exact exists_appending_of_silent rfl fun o => .showNotBegun clone hb
  | showDisabled clone hb hv => exact exists_appending_of_silent rfl fun o => .showDisabled clone hb hv
  | showFrame hh hb hv hm =>
    exact ⟨[.transferStart (BitVec.ofNat 21 (s.base s.active)) s.frameSize], rfl, fun o => by
      have hc := Completes.showFrame (s := s.within o) hh hb hv hm
      rwa [State.checked_within] at hc⟩

theorem Completes.within_of_silent {s t : State} {i : Instr} (h : Completes s i t) (hev : t.events = s.events) (o : State) :
    Completes (s.within o) i (t.within o) := by
  obtain ⟨es, hes, hwithin⟩ := h.appending
  obtain rfl : es = [] := by simpa [hev] using hes
  simpa using hwithin o

/-- No command looks at the schedule. -/
theorem Completes.withSchedule {s t : State} {i : Instr} (h : Completes s i t) (rest : List Agent) :
    Completes { s with schedule := rest } i { t with schedule := rest } := by
  obtain ⟨es, hev, hwithin⟩ := h.appending
  obtain ⟨-, hdraws, hcount⟩ := h.inputs
  have hc := hwithin { s with schedule := rest }
  have ht : t.within { s with events := s.events ++ es, schedule := rest } = { t with schedule := rest } := by
    simp [State.within, hev, hdraws, hcount]
  rw [ht] at hc
  exact hc

end Sys2Proof.Machine
end

section
/-! The transport's outcomes and the block (spec/43_transmit.md R165, R171): two states with the same block, whose histories
differ at most in their `WireFrame`s. -/

namespace Sys2Proof.Machine

/-- `s'` is `s` but for the draws and what they made of the history: the requests in it, and how many events it has, agree. -/
structure SameBlock (s s' : State) : Prop where
  block : s' = s.within s'
  schedule : s'.schedule = s.schedule
  requests : s'.events.filter (fun e => !isWireFrame e) = s.events.filter (fun e => !isWireFrame e)
  length : s'.events.length = s.events.length

theorem SameBlock.withSchedule {s s' : State} (h : SameBlock s s') (rest : List Agent) :
    SameBlock { s with schedule := rest } { s' with schedule := rest } := by
  refine ⟨?_, rfl, h.requests, h.length⟩
  rw [h.block]; rfl

theorem isWireFrame_wireFrameOf (x : Transfer) (d : Draw) : isWireFrame (wireFrameOf x d) = true := by
  cases d <;> rfl

/-- A transport step reads the same byte, or ends the transfer with some `WireFrame` in both. -/
theorem SameBlock.transportStep {s s' t : State} (h : SameBlock s s') (ht : transportStep s = .next t) :
    ∃ t', transportStep s' = .next t' ∧ SameBlock t t' := by
  have htx' : s'.tx = s.tx := by rw [h.block]; rfl
  obtain ⟨x, htx, ⟨hpos, v, hv, rfl⟩ | ⟨hpos, rfl⟩⟩ := transportStep_next ht
  · have hread : Memory.read s'.ram (x.base.toNat + x.pos) = some v := by rw [h.block]; exact hv
    refine ⟨_, transportStep_of_read (htx'.trans htx) hpos hread, ?_, h.schedule, h.requests, h.length⟩
    rw [h.block]; rfl
  · refine ⟨_, transportStep_of_ended (htx'.trans htx) hpos, ?_, ?_, ?_, ?_⟩
    · rw [State.dropDraw_eq s', State.dropDraw_eq s, h.block]; rfl
    · simp [h.schedule]
    · simp [h.requests, isWireFrame_wireFrameOf]
    · simp [h.length]

/-- A completed command appends the same requests in both. -/
theorem SameBlock.completes {s s' t : State} {i : Instr} (h : SameBlock s s') (hc : Completes s i t) :
    ∃ t', Completes s' i t' ∧ SameBlock t t' := by
  obtain ⟨es, hev, hwithin⟩ := hc.appending
  have hc' := hwithin s'
  rw [← h.block] at hc'
  refine ⟨_, hc', rfl, h.schedule.trans hc.inputs.1.symm, ?_, ?_⟩
  · simp [State.within, hev, h.requests]
  · simp [State.within, hev, h.length]

theorem SameBlock.runCommand {s s' t : State} {w : CommandWord} (h : SameBlock s s') (ht : runCommand w s = .next t) :
    ∃ t', runCommand w s' = .next t' ∧ SameBlock t t' := by
  cases hd : decode w with
  | illegal r =>
    rw [runCommand_of_illegal hd] at ht
    cases ht
    refine ⟨_, runCommand_of_illegal hd s', ?_, h.schedule, h.requests, h.length⟩
    rw [h.block]; rfl
  | ok i =>
    rw [runCommand_of_ok hd] at ht
    obtain ⟨hheld, ⟨op, hop, hshow⟩, htr⟩ | hc := exec_next_held_or_completes ht
    · have hexec : exec i s' = Machine.transportStep s' := by
        rw [h.block]; exact exec_of_held (s := s.within s') hheld hop hshow
      rw [Machine.runCommand_of_ok hd, hexec]
      exact h.transportStep htr
    · obtain ⟨t', hc', hsame⟩ := h.completes hc
      exact ⟨t', hc'.runCommand_eq hd, hsame⟩

/-- Who moves depends on the host's sequence, TX and the schedule only (R168). -/
theorem SameBlock.step {s s' t : State} (h : SameBlock s s') (ht : step s = .next t) :
    ∃ t', step s' = .next t' ∧ SameBlock t t' := by
  have hw' : s'.nextCommand = s.nextCommand := by rw [h.block]; rfl
  have htx' : s'.tx = s.tx := by rw [h.block]; rfl
  cases hw : s.nextCommand with
  | none =>
    cases htx : s.tx with
    | idle => simp [step_of_no_command_idle hw htx] at ht
    | busy x =>
      rw [step_of_no_command_busy hw htx] at ht
      rw [step_of_no_command_busy (hw'.trans hw) (htx'.trans htx)]
      exact h.transportStep ht
  | some w =>
    cases htx : s.tx with
    | idle =>
      rw [step_of_idle hw htx] at ht
      rw [step_of_idle (hw'.trans hw) (htx'.trans htx)]
      exact h.runCommand ht
    | busy x =>
      cases hs : s.schedule with
      | nil =>
        rw [step_of_schedule_nil hw hs] at ht
        rw [step_of_schedule_nil (hw'.trans hw) (h.schedule.trans hs)]
        exact h.runCommand ht
      | cons agent rest =>
        cases agent with
        | controller =>
          rw [step_of_controller_head hw htx hs] at ht
          rw [step_of_controller_head (hw'.trans hw) (htx'.trans htx) (h.schedule.trans hs)]
          exact (h.withSchedule rest).runCommand ht
        | transport =>
          rw [step_of_transport_head hw htx hs] at ht
          rw [step_of_transport_head (hw'.trans hw) (htx'.trans htx) (h.schedule.trans hs)]
          exact (h.withSchedule rest).transportStep ht

theorem SameBlock.run {m : Nat} {s s' t : State} (h : SameBlock s s') (ht : core.run m s = .next t) :
    ∃ t', core.run m s' = .next t' ∧ SameBlock t t' := by
  induction m generalizing s s' with
  | zero => cases ht; exact ⟨s', run_zero s', h⟩
  | succ m ih =>
    obtain ⟨u, hu, hrun⟩ := run_succ_next ht
    obtain ⟨u', hu', hsame⟩ := h.step hu
    rw [run_succ_of_next hu']
    exact ih hsame hrun

/-- Settles O48, by induction over the run: the draws are no part of the block, and each step keeps the two blocks the same. -/
theorem drawsNeverReachTheBlock : Obligations.DrawsNeverReachTheBlock := by
  intro m s t ds k ht
  have hstart : SameBlock s { s with draws := ds, drawCount := k } := ⟨rfl, rfl, rfl, rfl⟩
  obtain ⟨t', ht', hsame⟩ := hstart.run ht
  have hblock := hsame.block
  unfold State.within at hblock
  rw [hsame.schedule] at hblock
  exact ⟨t', ht', hblock, hsame.requests, hsame.length⟩

end Sys2Proof.Machine
end

section
/-! Commands beside an unviolated transfer (spec/43_transmit.md R173, spec/70_reset_and_hazards.md R215, R217). -/

namespace Sys2Proof.Machine

/-- A command that the contract does not restrict writes no byte of the inactive half. -/
theorem Completes.reads_inactive {s t : State} {i : Instr} (h : Completes s i t) (hr : restriction i = none)
    (hfs : s.fs = frameBytes s.cfg.variant s.n.toNat) {o : Nat} (ho : o < s.fs) :
    Memory.read t.ram (s.base s.active.other + o) = Memory.read s.ram (s.base s.active.other + o) := by
  have hout := s.outsideSlots_other s.active ho
  have hexec := h.exec_eq
  cases i with
  | clear => exact execClear_reads_outsideSlots hfs hexec hout
  | setpix idx r g b w => exact setPixel_reads_outsideSlots hfs hexec hout
  | setpixp idx col => exact setPixel_reads_outsideSlots hfs hexec hout
  | setlen | teardown | showFrame => cases hr
  | encodeByte | decodePattern | pack | pixcnt | beginTransport => cases h <;> rfl

/-- An unrestricted command, once BEGUN is set, writes RESULT, RAM and STATUS, and nothing else. -/
theorem Completes.unrestricted_frame {s t : State} {i : Instr} (h : Completes s i t) (hr : restriction i = none)
    (hb : s.begun = true) : t = { s with result := t.result, ram := t.ram, status := t.status, pc := t.pc } := by
  cases h with
  | encodeByte | decodePattern | pack | pixcnt | clearDisabled | clear | setpixIndex | setpix | setpixpIndex | setpixp
  | beginAgain => rfl
  | beginFirst hb' => simp [hb] at hb'
  | setlen | setlenAlloc | teardown | showNotBegun | showDisabled | showFrame => cases hr

theorem FaultBits.add_ne_empty (f : FaultBits) (op : ContractOp) : f.add op ≠ .empty := by
  cases op <;> simp [FaultBits.add, FaultBits.empty]

theorem Completes.faultBits_empty {s t : State} {i : Instr} (h : Completes s i t) (hf : t.faultBits = .empty) :
    s.faultBits = .empty := by
  obtain heq | ⟨-, op, hadd⟩ := h.faultBits
  · rw [← heq, hf]
  · exact absurd (hadd.symm.trans hf) (FaultBits.add_ne_empty s.faultBits op)

/-- While a transfer is in flight, no restricted command completes without recording a violation (R215). -/
theorem Completes.unrestricted_of_in_flight {s t : State} {i : Instr} {x : Transfer} (h : Completes s i t) (hi : Inv s)
    (htx : s.tx = .busy x) (hf : t.faultBits = .empty) : restriction i = none := by
  have hviolated (op : ContractOp) : (s.checked op).faultBits ≠ .empty :=
    State.checked_faultBits_ne_empty (by simp [htx]) op
  obtain ⟨hv, hb, -⟩ := hi.inactive x htx (h.faultBits_empty hf)
  cases h with
  | encodeByte | decodePattern | pack | pixcnt | clearDisabled | clear | setpixIndex | setpix | setpixpIndex | setpixp
  | beginAgain | beginFirst => rfl
  | setlen | setlenAlloc => exact absurd hf (hviolated .setlen)
  | teardown => exact absurd hf (hviolated .teardown)
  | showNotBegun _ hb' => simp [hb] at hb'
  | showDisabled _ _ hv' => simp [hv] at hv'
  | showFrame => exact absurd hf (hviolated .showFrame)

/-- While a transfer is in flight, a command that completes without recording a violation writes RESULT, STATUS and RAM outside
the half in flight, and nothing else (R217). -/
theorem Completes.in_flight {s t : State} {i : Instr} {x : Transfer} (h : Completes s i t) (hi : Inv s) (htx : s.tx = .busy x)
    (hf : t.faultBits = .empty) :
    restriction i = none ∧ t = { s with result := t.result, ram := t.ram, status := t.status, pc := t.pc } ∧
      ∀ o, o < s.fs → Memory.read t.ram (s.base x.half + o) = Memory.read s.ram (s.base x.half + o) := by
  have hr := h.unrestricted_of_in_flight hi htx hf
  obtain ⟨hv, hb, hhalf, -⟩ := hi.inactive x htx (h.faultBits_empty hf)
  refine ⟨hr, h.unrestricted_frame hr hb, fun o ho => ?_⟩
  rw [hhalf]
  exact h.reads_inactive hr (hi.enabled hv).1 ho

/-- An unrestricted command does not look at the transfer in flight. -/
theorem Completes.withTx {s t : State} {i : Instr} (h : Completes s i t) (hr : restriction i = none) (y : Tx) :
    Completes { s with tx := y } i { t with tx := y } := by
  cases h with
  | encodeByte v => exact .encodeByte v
  | decodePattern p => exact .decodePattern p
  | pack r g b w => exact .pack r g b w
  | pixcnt => exact .pixcnt
  | clearDisabled hv => exact .clearDisabled hv
  | clear hv => exact .clear hv
  | setpixIndex r g b w hidx => exact .setpixIndex r g b w hidx
  | setpix r g b w hidx => exact .setpix r g b w hidx
  | setpixpIndex col hidx => exact .setpixpIndex col hidx
  | setpixp col hidx => exact .setpixp col hidx
  | beginAgain hb => exact .beginAgain hb
  | beginFirst hb => exact .beginFirst hb
  | setlen | setlenAlloc | teardown | showNotBegun | showDisabled | showFrame => cases hr

end Sys2Proof.Machine
end

section
/-! The interleaving of the two agents (spec/43_transmit.md R168, R173). Every step leaves the same serial run ahead: the one in
which each transfer ends before the next command begins. -/

namespace Sys2Proof.Machine

/-! ### The state once the transfer in flight has ended -/

/-- The transfer with all of its bytes read from `m`. -/
def Transfer.filled (x : Transfer) (m : Memory) : Transfer :=
  { x with pos := x.len.toNat, bytes := (Memory.readBytes m x.base.toNat x.len.toNat).getD [] }

/-- What `s` becomes once the transfer in flight has ended, with the schedule left out. -/
def State.drained (s : State) : State :=
  match s.tx with
  | .idle => { s with schedule := [] }
  | .busy x =>
    { s with
      tx := .idle
      events := s.events ++ [wireFrameOf (x.filled s.ram) s.nextDraw]
      schedule := []
      draws := s.draws.tail
      drawCount := s.drawCount + if s.draws = [] then 1 else 0 }

theorem State.drained_of_idle {s : State} (h : s.tx = .idle) : s.drained = { s with schedule := [] } := by
  simp [State.drained, h]

theorem State.drained_of_busy {s : State} {x : Transfer} (h : s.tx = .busy x) :
    s.drained = { s with
      tx := .idle
      events := s.events ++ [wireFrameOf (x.filled s.ram) s.nextDraw]
      schedule := []
      draws := s.draws.tail
      drawCount := s.drawCount + if s.draws = [] then 1 else 0 } := by
  simp [State.drained, h]

theorem State.drained_withSchedule (s : State) (rest : List Agent) : State.drained { s with schedule := rest } = s.drained := by
  unfold State.drained
  cases s.tx <;> rfl

theorem State.drained_drained (s : State) : s.drained.drained = s.drained := by
  unfold State.drained
  cases s.tx <;> rfl

/-- An unviolated transfer that has read its last byte has recorded what its half holds (R173). -/
theorem Transfer.filled_of_ended {s : State} {x : Transfer} (hi : Inv s) (hf : s.faultBits = .empty) (htx : s.tx = .busy x)
    (hpos : x.len.toNat ≤ x.pos) : x.filled s.ram = x := by
  obtain ⟨-, -, -, hbase, -, hread⟩ := hi.inactive x htx hf
  have hpos : x.len.toNat = x.pos := Nat.le_antisymm hpos (hi.transfer x htx).1
  simp [Transfer.filled, hpos, hbase, hread]

/-- A transport step leads to the same end of the transfer. -/
theorem State.drained_of_transportStep {s t : State} (hi : Inv s) (hf : s.faultBits = .empty) (h : transportStep s = .next t) :
    t.drained = s.drained := by
  obtain ⟨x, htx, ⟨-, v, -, rfl⟩ | ⟨hpos, rfl⟩⟩ := transportStep_next h
  · rw [State.drained_of_busy htx, State.drained_of_busy (State.setTx_tx ..)]; rfl
  · rw [State.drained_of_busy htx, State.drained_of_idle (State.setTx_tx ..), Transfer.filled_of_ended hi hf htx hpos,
      State.dropDraw_eq, State.dropDraw_draws, State.dropDraw_drawCount]
    rfl

/-! ### The serial run -/

/-- Run a command and let the transfer it starts end. -/
def State.serve (s : State) (w : CommandWord) : State :=
  match runCommand w s with
  | .next t => t.drained
  | .fault _ => s
  | .refused _ => s

theorem State.serve_of_next {s t : State} {w : CommandWord} (h : runCommand w s = .next t) : s.serve w = t.drained := by
  simp [State.serve, h]

/-- Beside a transfer in flight an illegal word does what it does after it. -/
theorem State.serve_drained_of_illegal {w : CommandWord} {r : Reject} (hd : decode w = .illegal r) (s : State) :
    s.drained.serve w = State.drained { s with status := 3, pc := s.pc + 1 } := by
  rw [State.serve_of_next (runCommand_of_illegal hd _)]
  cases htx : s.tx with
  | idle => simp only [State.drained, htx]
  | busy x => simp only [State.drained, htx]; rfl

theorem Transfer.filled_congr {x : Transfer} {m m' : Memory}
    (h : ∀ o, o < x.len.toNat → Memory.read m' (x.base.toNat + o) = Memory.read m (x.base.toNat + o)) :
    x.filled m' = x.filled m := by
  rw [Transfer.filled, Memory.readBytes_congr h, Transfer.filled]

/-- A command that completes with no violation recorded completes alike once the transfer in flight has ended. -/
theorem Completes.drained {s t : State} {i : Instr} (hi : Inv s) (hc : Completes s i t) (hf : t.faultBits = .empty) :
    ∃ u, Completes s.drained i u ∧ u.drained = t.drained := by
  cases htx : s.tx with
  | idle =>
    rw [State.drained_of_idle htx]
    exact ⟨_, hc.withSchedule [], State.drained_withSchedule t []⟩
  | busy x =>
    obtain ⟨hr, ht, hram⟩ := hc.in_flight hi htx hf
    have hfilled : x.filled t.ram = x.filled s.ram := by
      obtain ⟨-, -, -, hbase, hlen, -⟩ := hi.inactive x htx (hc.faultBits_empty hf)
      exact Transfer.filled_congr fun o ho => by rw [hbase]; exact hram o (by rwa [hlen] at ho)
    have hc' := (hc.withTx hr .idle).within_of_silent (by rw [ht]) s.drained
    have hs : State.within { s with tx := .idle } s.drained = s.drained := by rw [State.drained_of_busy htx]; rfl
    have htx' : t.tx = .busy x := by rw [ht, htx]
    have hu : State.within { t with tx := .idle } s.drained = t.drained := by
      rw [State.drained_of_busy htx, State.drained_of_busy htx', hfilled, ht]; rfl
    rw [hs, hu] at hc'
    exact ⟨_, hc', t.drained_drained⟩

theorem State.serve_drained_of_completes {s t : State} {w : CommandWord} {i : Instr} (hi : Inv s) (hd : decode w = .ok i)
    (hc : Completes s i t) (hf : t.faultBits = .empty) : s.drained.serve w = t.drained := by
  obtain ⟨u, hu, hdrained⟩ := hc.drained hi hf
  rw [State.serve_of_next (hu.runCommand_eq hd), hdrained]

/-- The end of the serial run of the commands that are left. -/
def State.serialEnd (s : State) : State := (s.program.drop s.pc).foldl State.serve s.drained

theorem State.serialEnd_withSchedule (s : State) (rest : List Agent) :
    State.serialEnd { s with schedule := rest } = s.serialEnd := by
  rw [State.serialEnd, State.drained_withSchedule]; rfl

/-- At the end of the host's sequence nothing is left to serve. -/
theorem State.serialEnd_of_ended {s : State} (hw : s.nextCommand = none) (htx : s.tx = .idle) :
    s.serialEnd = { s with schedule := [] } := by
  rw [State.serialEnd, List.drop_of_length_le (List.getElem?_eq_none_iff.mp hw), List.foldl_nil, State.drained_of_idle htx]

/-- A state one command on, which the serial run of that command leads to as well, has the same serial run ahead. -/
theorem State.serialEnd_of_served {s t : State} {w : CommandWord} (hw : s.nextCommand = some w)
    (hserve : s.drained.serve w = t.drained) (hprog : t.program = s.program) (hpc : t.pc = s.pc + 1) :
    t.serialEnd = s.serialEnd := by
  obtain ⟨hlt, hget⟩ := List.getElem?_eq_some_iff.mp hw
  rw [State.serialEnd, State.serialEnd, List.drop_eq_getElem_cons hlt, List.foldl_cons, hget, hserve, hprog, hpc]

/-- No unviolated step changes the serial run ahead. -/
theorem State.serialEnd_of_step {s t : State} (hi : Inv s) (hs : s.faultBits = .empty) (ht : t.faultBits = .empty)
    (h : step s = .next t) : t.serialEnd = s.serialEnd := by
  obtain ⟨rest, hstep⟩ := step_next_cases h
  have hu : Inv { s with schedule := rest } := inv_of_frame hi rfl hi.status hi.pc
  rw [← s.serialEnd_withSchedule rest]
  obtain htr | ⟨w, hw, ⟨r, hd, rfl⟩ | ⟨i, hd, hc⟩⟩ := hstep
  · rw [State.serialEnd, State.drained_of_transportStep hu hs htr, transportStep_frame htr, State.serialEnd]
  · exact State.serialEnd_of_served (s := { s with schedule := rest }) hw (State.serve_drained_of_illegal hd _) rfl rfl
  · obtain ⟨hpc, -, hprog⟩ := hc.frame
    have hserve := State.serve_drained_of_completes hu hd hc ht
    exact State.serialEnd_of_served (s := { s with schedule := rest }) hw hserve hprog hpc

/-- Under `host_duty` no step records a violation (R215), so a run has one serial run ahead throughout. -/
theorem State.serialEnd_of_run {m : Nat} {s t : State} (hi : Inv s) (hf : s.faultBits = .empty)
    (hm : s.cfg.contractMode = .hostDuty) (h : core.run m s = .next t) : t.serialEnd = s.serialEnd := by
  have hkept : ∀ u v : State,
      (Inv u ∧ u.faultBits = .empty ∧ u.cfg.contractMode = .hostDuty ∧ u.serialEnd = s.serialEnd) →
      step u = .next v → Inv v ∧ v.faultBits = .empty ∧ v.cfg.contractMode = .hostDuty ∧ v.serialEnd = s.serialEnd := by
    rintro u v ⟨hiu, hfu, hmu, hend⟩ huv
    obtain ⟨hcfg, hbits⟩ := step_cfg_faultBits huv
    have hfv : v.faultBits = .empty := (hbits.resolve_right fun ⟨hfault, _⟩ => by simp [hmu] at hfault).trans hfu
    exact ⟨stepKeepsInv u v hiu huv, hfv, by rw [hcfg, hmu], (State.serialEnd_of_step hiu hfu hfv huv).trans hend⟩
  obtain ⟨-, -, -, hend⟩ := run_induction hkept ⟨hi, hf, hm, rfl⟩ h
  exact hend

/-- Settles O49: both runs end where the serial run does, which knows no schedule. -/
theorem scheduleNeverShows : Obligations.ScheduleNeverShows := by
  intro m m' s t t' sched hi hf hm ht hw htx ht' hw' htx'
  have hi' : Inv { s with schedule := sched } := inv_of_frame hi rfl hi.status hi.pc
  have hends : ({ t' with schedule := [] } : State) = { t with schedule := [] } :=
    calc ({ t' with schedule := [] } : State) = t'.serialEnd := (State.serialEnd_of_ended hw' htx').symm
      _ = State.serialEnd { s with schedule := sched } := State.serialEnd_of_run hi' hf hm ht'
      _ = s.serialEnd := s.serialEnd_withSchedule sched
      _ = t.serialEnd := (State.serialEnd_of_run hi hf hm ht).symm
      _ = { t with schedule := [] } := State.serialEnd_of_ended hw htx
  calc t' = { ({ t' with schedule := [] } : State) with schedule := t'.schedule } := rfl
    _ = { t with schedule := t'.schedule } := by rw [hends]

end Sys2Proof.Machine
end

section
/-! The snapshot law (spec/43_transmit.md R173): what the Transport puts on the line is what the sent half held when SHOW began. -/

namespace Sys2Proof.Machine

/-- An accepted SHOW starts a transfer of what the sent half holds: with or without the clone copy, that half keeps its bytes. -/
theorem Completes.starts_sending {s t : State} {clone : Bool} (hi : Inv s) (h : Completes s (.showFrame clone) t)
    (hstatus : t.status = 0) : ∃ snap, s.observeHalf s.active = some snap ∧ t.Sending s.active snap := by
  cases h with
  | showNotBegun => simp at hstatus
  | showDisabled => simp at hstatus
  | @showFrame _ m _ _ hv hm =>
    obtain ⟨snap, hsnap⟩ := hi.half_readable hv s.active
    have hkept : Memory.readBytes m (s.base s.active) s.fs = some snap := by
      obtain ⟨-, rfl⟩ | ⟨-, hm⟩ := hm
      · exact hsnap
      · exact readBytes_half_of_copy hm hsnap s.active
    refine ⟨snap, observeHalf_of_readBytes hv rfl hsnap, _, rfl, rfl, rfl, ?_⟩
    rw [State.checked_eq]; exact hkept

/-- An unviolated transfer step reads the snapshot's next byte, or ends the transfer with all of them read. -/
theorem State.Sending.transportStep {s t : State} {h : Half} {snap : List Byte} (hi : Inv s) (hs : s.Sending h snap)
    (hf : s.faultBits = .empty) (ht : transportStep s = .next t) :
    t.Sending h snap ∧ t.events = s.events ∨
      t.tx = .idle ∧ (t.events = s.events ++ [.wireFrame h snap true] ∨
        ∃ k, t.events = s.events ++ [.wireFrame h (snap.take k) false]) := by
  obtain ⟨x, htx, rfl, hbytes, hsnap⟩ := hs
  obtain ⟨-, -, -, hbase, hlen, -⟩ := hi.inactive x htx hf
  have hlen : x.len.toNat = s.fs := by rw [hlen]; rfl
  have hsnapLen := Memory.length_of_readBytes hsnap
  obtain ⟨y, hy, ⟨hpos, v, hv, rfl⟩ | ⟨hpos, rfl⟩⟩ := transportStep_next ht
  · obtain rfl : x = y := Tx.busy.inj (htx.symm.trans hy)
    refine .inl ⟨⟨_, rfl, rfl, ?_, hsnap⟩, rfl⟩
    have hnext : snap[x.pos]? = some v := by rw [← hv, hbase, Memory.read_of_readBytes hsnap (hlen ▸ hpos)]
    rw [List.take_add_one, hnext, ← hbytes]; rfl
  · obtain rfl : x = y := Tx.busy.inj (htx.symm.trans hy)
    have hall : x.bytes = snap := by rw [hbytes, List.take_of_length_le (by omega)]
    refine .inr ⟨rfl, ?_⟩
    cases s.nextDraw with
    | ok => exact .inl (by simp [wireFrameOf, hall])
    | fail k => exact .inr ⟨k, by simp [wireFrameOf, hall]⟩

/-- A command that completes with no violation recorded leaves the transfer and the half it reads alone. -/
theorem State.Sending.completes {s t : State} {i : Instr} {h : Half} {snap : List Byte} (hi : Inv s) (hs : s.Sending h snap)
    (hc : Completes s i t) (hf : t.faultBits = .empty) : t.Sending h snap ∧ t.events = s.events := by
  obtain ⟨x, htx, rfl, hbytes, hsnap⟩ := hs
  obtain ⟨-, ht, hram⟩ := hc.in_flight hi htx hf
  refine ⟨⟨x, by rw [ht, htx], rfl, hbytes, ?_⟩, by rw [ht]⟩
  have hplace : t.base x.half = s.base x.half ∧ t.fs = s.fs := by rw [ht]; exact ⟨rfl, rfl⟩
  rw [hplace.1, hplace.2, Memory.readBytes_congr hram, hsnap]

/-- A step after which no violation is recorded starts where none is (R34). -/
theorem faultBits_empty_of_step {s t : State} (h : step s = .next t) (hf : t.faultBits = .empty) : s.faultBits = .empty := by
  obtain ⟨-, heq | ⟨-, op, hadd⟩⟩ := step_cfg_faultBits h
  · rw [← heq, hf]
  · exact absurd (hadd.symm.trans hf) (FaultBits.add_ne_empty s.faultBits op)

/-- Settles O45, by the three kinds of a step: only the Transport's reads the snapshot, and only it ends the transfer. -/
theorem wireFrameIsTheSnapshot : Obligations.WireFrameIsTheSnapshot := by
  refine ⟨fun s t clone hi hh h hstatus => ?_, fun s t h snap hi hs hstep hf => ?_⟩
  · exact ((exec_next_completes h).resolve_left fun ⟨hheld, _⟩ => hh hheld).starts_sending hi hstatus
  · have hfs : s.faultBits = .empty := faultBits_empty_of_step hstep hf
    obtain ⟨rest, hcases⟩ := step_next_cases hstep
    have hu : Inv { s with schedule := rest } := inv_of_frame hi rfl hi.status hi.pc
    obtain htr | ⟨w, -, ⟨r, -, rfl⟩ | ⟨i, -, hc⟩⟩ := hcases
    · exact State.Sending.transportStep (s := { s with schedule := rest }) hu hs hfs htr
    · exact .inl ⟨hs, rfl⟩
    · exact .inl (State.Sending.completes (s := { s with schedule := rest }) hu hs hc hf)

end Sys2Proof.Machine
end

section
/-! The active half is the parity of the accepted SHOWs (spec/43_transmit.md R163). -/

namespace Sys2Proof.Machine

/-- The count `k` says which half is active. -/
def State.ActiveIsParity (s : State) (k : Nat) : Prop := s.active = .a ↔ k % 2 = 0

theorem State.ActiveIsParity.flip {s t : State} {k : Nat} (h : s.ActiveIsParity k) (ht : t.active = s.active.other) :
    t.ActiveIsParity (k + 1) := by
  unfold State.ActiveIsParity at *
  rw [ht]
  cases hs : s.active <;> simp [hs, Half.other] at h ⊢ <;> omega

theorem State.activeIsParity_zero {t : State} (ht : t.active = .a) : t.ActiveIsParity 0 := by simp [State.ActiveIsParity, ht]

theorem countShow_of_none {s t : State} (h : commandRun s t = none) (k : Nat) : countShow s t k = k := by
  simp [countShow, h]

/-- Each step keeps the parity: an accepted SHOW flips and counts, SETLEN and TEARDOWN go back to Half A and to 0. -/
theorem State.ActiveIsParity.step {s t : State} {k : Nat} (hk : s.ActiveIsParity k) (h : step s = .next t) :
    t.ActiveIsParity (countShow s t k) := by
  obtain ⟨rest, ht | ⟨ht, hrun⟩ | ⟨i, hrun, hc⟩⟩ := step_next_commandRun h
  · have hpc : t.pc = s.pc := by rw [ht]
    have hact : t.active = s.active := by rw [ht]
    rw [countShow_of_none (commandRun_of_pc_kept hpc), State.ActiveIsParity, hact]; exact hk
  · have hact : t.active = s.active := by rw [ht]
    rw [countShow_of_none hrun, State.ActiveIsParity, hact]; exact hk
  · unfold countShow
    rw [hrun]
    cases hc with
    | setlen | setlenAlloc | teardown => exact State.activeIsParity_zero rfl
    | showFrame => exact hk.flip rfl
    | encodeByte | decodePattern | pack | pixcnt | clearDisabled | clear | setpixIndex | setpix | setpixpIndex | setpixp
    | beginAgain | beginFirst | showNotBegun | showDisabled => exact hk

theorem State.ActiveIsParity.run {m k : Nat} {s t : State} (hk : s.ActiveIsParity k) (h : core.run m s = .next t) :
    t.ActiveIsParity (showsAfter m s k) := by
  induction m generalizing s k with
  | zero => cases h; exact hk
  | succ m ih =>
    obtain ⟨u, hu, hrun⟩ := run_succ_next h
    rw [showsAfter, hu]
    exact ih (hk.step hu) hrun

/-- Settles O36, by induction over the run: Half A active is the parity of the count 0. -/
theorem activeHalfAlternates : Obligations.ActiveHalfAlternates :=
  fun _ _ _ ha h => (State.activeIsParity_zero ha).run h

end Sys2Proof.Machine
end

section
/-! SHOW's error order (spec/60_exceptions.md R194, R195, R198): the word's reserved field, then BEGUN, then VALID. -/

namespace Sys2Proof.Machine

/-- Format `S1`'s operand is the word's lowest bit. -/
theorem cloneBit_eq_getLsbD (w : CommandWord) : (field w 0 1 == 1#1) = w.getLsbD 0 := by
  have hbit : field w 0 1 = BitVec.ofBool (w.getLsbD 0) := BitVec.eq_of_getLsbD_eq fun j hj => by
    obtain rfl : j = 0 := by omega
    simp [field]
  rw [hbit]
  cases w.getLsbD 0 <;> rfl

theorem decode_show {w : CommandWord} (h : opcodeOf w = 0x31#8) :
    decode w = unlessReserved w (field w 1 55 == 0) (.showFrame (w.getLsbD 0)) := by
  rw [decode_of_opcode_31 h, decodeS1, cloneBit_eq_getLsbD]

/-- Settles O32, by the checks in their order: a clear reserved field leaves the command, which completes with the first error
of the state whatever the transport does. -/
theorem showReportsTheFirstError : Obligations.ShowReportsTheFirstError := by
  intro w s hop
  have hrun := runCommand_of_unlessReserved (decode_show hop) s
  refine ⟨fun hset => by rw [hrun, if_pos hset], fun hclear => ?_⟩
  have hexec : runCommand w s = exec (.showFrame (w.getLsbD 0)) s := by rw [hrun, if_neg (not_not.mpr hclear)]
  exact ⟨hexec, fun hb => hexec.trans (Completes.showNotBegun _ hb).exec_eq,
    fun hb hv => hexec.trans (Completes.showDisabled _ hb hv).exec_eq⟩

end Sys2Proof.Machine
end

section
/-! The state after reset and the timing contract (spec/70_reset_and_hazards.md): what holds a restricted command, what a
violation leaves, what is no hazard, and how long a held command waits. -/

namespace Sys2Proof.Machine

/-! ### Reset (R210) -/

/-- Settles O1: the reset state written out, and the encoding table by the three bits of a group. -/
theorem resetLeavesTheBlockDisabled : Obligations.ResetLeavesTheBlockDisabled := by
  refine fun c => ⟨rfl, rfl, rfl, rfl, rfl, rfl, rfl, rfl, rfl, rfl, rfl, fun a => rfl, fun v i hi => ?_⟩
  exact ⟨lut_first_bit v hi, lut_middle_bit v hi, lut_last_bit v hi⟩

/-! ### `host_duty`: the command is held (R215) -/

/-- Settles O37: the contract's check hands the step to the Transport, which keeps the host's place and STATUS. -/
theorem hostDutyHoldsTheCommand : Obligations.HostDutyHoldsTheCommand := by
  intro s i op hheld hr hshow
  have hexec := exec_of_held hheld hr hshow
  refine ⟨hexec, fun t ht => ?_⟩
  rw [transportStep_frame (hexec.symm.trans ht)]
  exact ⟨rfl, rfl, rfl⟩

/-! ### `fault`: the violation is recorded and the command proceeds (R215) -/

theorem mem_append_singleton_of_not_wireFrame {es : List Event} {e e' : Event} (hsilent : isWireFrame e' = false)
    (he : e ∈ es ++ [e']) : e ∈ es ∨ isWireFrame e = false := by
  obtain he | he := List.mem_append.mp he
  · exact .inl he
  · rw [List.mem_singleton.mp he]; exact .inr hsilent

/-- No command puts a frame on the line: that is the Transport's (R171). -/
theorem Completes.emits_no_wireFrame {s t : State} {i : Instr} (h : Completes s i t) {e : Event} (he : e ∈ t.events) :
    e ∈ s.events ∨ isWireFrame e = false := by
  cases h with
  | beginFirst | showFrame => exact mem_append_singleton_of_not_wireFrame rfl he
  | _ => exact .inl (by simpa using he)

/-- A restricted command that completes with the transport Idle completes as well with a transfer in flight, where the contract
does not hold it: the violation is recorded, and only an accepted SHOW replaces the transfer. -/
theorem Completes.violating {s t : State} {x : Transfer} {i : Instr} {op : ContractOp} (htx : s.tx = .busy x) (hh : ¬ s.Held)
    (hr : restriction i = some op) (hshow : op = .showFrame → s.begun = true ∧ s.valid = true)
    (h : Completes { s with tx := .idle } i t) :
    Completes s i { t with faultBits := s.faultBits.add op, tx := if op = .showFrame then t.tx else .busy x } := by
  -- With the transfer written out in the state, what the contract's check records computes.
  cases s
  cases htx
  cases h with
  | setlen _ hfit => cases hr; exact .setlen hh hfit
  | setlenAlloc _ hbig => cases hr; exact .setlenAlloc hh hbig
  | teardown => cases hr; exact .teardown hh
  | showFrame _ hb hv hm => cases hr; exact .showFrame hh hb hv hm
  | showNotBegun _ hb => cases hr; exact absurd (hshow rfl).1 (Bool.eq_false_iff.mp hb)
  | showDisabled _ _ hv => cases hr; exact absurd (hshow rfl).2 (Bool.eq_false_iff.mp hv)
  | encodeByte | decodePattern | pack | pixcnt | clearDisabled | clear | setpixIndex | setpix | setpixpIndex | setpixp
  | beginAgain | beginFirst => cases hr

/-- Settles O38: the command completes over the recorded violation as it does with the transport Idle, and emits no frame. -/
theorem faultModeRecordsAndProceeds : Obligations.FaultModeRecordsAndProceeds := by
  intro s t x i op htx hmode hr hshow h
  have hh : ¬ s.Held := fun ⟨_, hduty⟩ => by simp [hmode] at hduty
  have hc := exec_next_completes_of_idle rfl h
  exact ⟨(hc.violating htx hh hr hshow).exec_eq, fun e he => hc.emits_no_wireFrame he⟩

/-! ### The unrestricted commands are no hazard (R217) -/

theorem exec_next_completes_of_unrestricted {i : Instr} {s t : State} (hr : restriction i = none) (h : exec i s = .next t) :
    Completes s i t :=
  (exec_next_held_or_completes h).resolve_left fun ⟨_, ⟨op, hop, _⟩, _⟩ => by simp [hr] at hop

/-- Settles O40: an unrestricted command goes on, completes, and writes no byte of the half that the transfer reads. -/
theorem unrestrictedCommandsAreNoHazard : Obligations.UnrestrictedCommandsAreNoHazard := by
  intro s x i hi hf htx hr
  obtain ⟨t, ht⟩ := exec_goes_on hi hf i
  have hc := exec_next_completes_of_unrestricted hr ht
  obtain ⟨hv, hb, hhalf, hbase, hlen, -⟩ := hi.inactive x htx hf
  have hframe := hc.unrestricted_frame hr hb
  have htx' : t.tx = .busy x := by rw [hframe, htx]
  have hf' : t.faultBits = s.faultBits := by rw [hframe]
  refine ⟨t, ht, hc.frame.1, htx', hf', fun a hlo hhi => ?_⟩
  obtain ⟨o, rfl⟩ := Nat.exists_eq_add_of_le hlo
  have ho : o < s.fs := by rw [hlen] at hhi; exact Nat.lt_of_add_lt_add_left hhi
  rw [hbase, hhalf]
  exact hc.reads_inactive hr (hi.enabled hv).1 ho

/-! ### A held command waits for the rest of the transfer (R220) -/

/-- The host waits for the Transport: no command is left, or the next one is held as long as a transfer is in flight. -/
structure State.Waiting (s : State) : Prop where
  inv : Inv s
  unviolated : s.faultBits = .empty
  hostDuty : s.cfg.contractMode = .hostDuty
  next : s.nextCommand = none ∨ ∃ w i op, s.nextCommand = some w ∧ decode w = .ok i ∧ restriction i = some op

/-- A restricted word beside an unviolated transfer under `host_duty` is held: the transfer has BEGUN and VALID set, so a SHOW
passes its own checks. -/
theorem runCommand_of_held {s : State} {x : Transfer} {w : CommandWord} {i : Instr} {op : ContractOp} (hi : Inv s)
    (hf : s.faultBits = .empty) (hm : s.cfg.contractMode = .hostDuty) (htx : s.tx = .busy x) (hd : decode w = .ok i)
    (hr : restriction i = some op) : runCommand w s = transportStep s := by
  obtain ⟨hv, hb, -⟩ := hi.inactive x htx hf
  rw [runCommand_of_ok hd, exec_of_held ⟨by simp [htx], hm⟩ hr fun _ => ⟨hb, hv⟩]

/-- Whatever the schedule says, the step beside a waiting host is the Transport's. -/
theorem State.Waiting.step_eq {s : State} {x : Transfer} (hs : s.Waiting) (htx : s.tx = .busy x) :
    ∃ rest, step s = transportStep { s with schedule := rest } := by
  obtain ⟨hi, hf, hm, hw | ⟨w, i, op, hw, hd, hr⟩⟩ := hs
  · exact ⟨s.schedule, step_of_no_command_busy hw htx⟩
  · cases hsch : s.schedule with
    | nil => exact ⟨s.schedule, (step_of_schedule_nil hw hsch).trans (runCommand_of_held hi hf hm htx hd hr)⟩
    | cons agent rest =>
      cases agent with
      | controller =>
        have hi' : Inv { s with schedule := rest } := inv_of_frame hi rfl hi.status hi.pc
        exact ⟨rest, (step_of_controller_head hw htx hsch).trans (runCommand_of_held hi' hf hm htx hd hr)⟩
      | transport => exact ⟨rest, step_of_transport_head hw htx hsch⟩

/-- Beside a waiting host a step goes on: it is the Transport's, and the host waits on and sees nothing of it. -/
theorem State.Waiting.goes_on {s : State} {x : Transfer} (hs : s.Waiting) (htx : s.tx = .busy x) :
    ∃ rest u, step s = .next u ∧ transportStep { s with schedule := rest } = .next u ∧ u.Waiting ∧
      u.pc = s.pc ∧ u.ram = s.ram ∧ u.hostView = s.hostView := by
  obtain ⟨rest, heq⟩ := hs.step_eq htx
  obtain ⟨u, hu⟩ := step_goes_on hs.inv hs.unviolated fun ⟨_, hidle⟩ => by simp [hidle] at htx
  have htr := heq.symm.trans hu
  have hinv : Inv u := stepKeepsInv s u hs.inv hu
  have hframe := transportStep_frame htr
  have hf : u.faultBits = .empty := by rw [hframe]; exact hs.unviolated
  have hm : u.cfg.contractMode = .hostDuty := by rw [hframe]; exact hs.hostDuty
  have hnext : u.nextCommand = s.nextCommand := by rw [hframe]; rfl
  have hkept : u.pc = s.pc ∧ u.ram = s.ram ∧ u.hostView = s.hostView := by rw [hframe]; exact ⟨rfl, rfl, rfl⟩
  exact ⟨rest, u, hu, htr, ⟨hinv, hf, hm, hnext ▸ hs.next⟩, hkept⟩

/-- One step for each byte left to read, and one more to end the transfer. -/
theorem State.Waiting.run_to_idle {k : Nat} {s : State} {x : Transfer} (hs : s.Waiting) (htx : s.tx = .busy x)
    (hk : x.len.toNat - x.pos = k) :
    ∃ t, core.run (k + 1) s = .next t ∧ t.tx = .idle ∧ t.pc = s.pc ∧ t.ram = s.ram ∧ t.hostView = s.hostView := by
  induction k generalizing s x with
  | zero =>
    obtain ⟨rest, u, hu, htr, -, hkept⟩ := hs.goes_on htx
    rw [transportStep_of_ended (s := { s with schedule := rest }) htx (Nat.le_of_sub_eq_zero hk)] at htr
    cases htr
    exact ⟨_, (run_succ_of_next hu).trans (run_zero _), rfl, hkept⟩
  | succ k ih =>
    obtain ⟨rest, u, hu, htr, hwait, hpc, hram, hview⟩ := hs.goes_on htx
    obtain ⟨y, hy, hread⟩ := transportStep_next htr
    obtain rfl : y = x := Tx.busy.inj (hy.symm.trans htx)
    obtain ⟨-, v, -, hread⟩ | ⟨hended, -⟩ := hread
    · have htx' : u.tx = .busy { y with pos := y.pos + 1, bytes := y.bytes ++ [v] } := by rw [hread, State.setTx_tx]
      obtain ⟨t, ht, hidle, hpc', hram', hview'⟩ := ih hwait htx' (by simp only; omega)
      exact ⟨t, (run_succ_of_next hu).trans ht, hidle, hpc'.trans hpc, hram'.trans hram, hview'.trans hview⟩
    · omega

/-- Settles O47: the host waits, so each step is the Transport's until the transfer has ended. -/
theorem heldTransferEnds : Obligations.HeldTransferEnds :=
  fun _ _ hi hf hm htx hw => State.Waiting.run_to_idle ⟨hi, hf, hm, hw⟩ htx rfl

end Sys2Proof.Machine
end
